-- ==== Sys2Proof/Word.lean ====
section
/-! DEFINITION. The word types of the core: `00_scope.md` R5, R8, R37, R82. -/

namespace Sys2Proof

/-- R5, R8: the 16-bit unit of storage, registers, addresses and instructions. Bit 15 is the most significant. -/
abbrev Word := BitVec 16

/-- R37: a console character is one byte. -/
abbrev Byte := BitVec 8

/-- R22, R82: a register index is a 3-bit field, and each of its eight values names a register. -/
abbrev Reg := BitVec 3

end Sys2Proof
end

