-- ==== Sys2Proof/Config.lean ====
section
/-! DEFINITION. The open parameters of R6 that stay fixed for a machine, the constraints of R7 on them, and the one free
value of the model. -/

namespace Sys2Proof

/-- The parameters of `00_scope.md` R6. ORIGIN, IMAGE and GPR_RESET are inputs of the reset (Machine/Reset.lean).
EOF_BEHAVIOUR is optional there and the model takes its default, "stuck" (log 7). -/
structure Config where
  /-- KBSR, the keyboard status address. -/
  kbsr : Word
  /-- KBDR, the keyboard data address. -/
  kbdr : Word
  /-- TV_GETC .. TV_HALT, the six trap vectors of R171. -/
  tvGetc : BitVec 8
  tvOut : BitVec 8
  tvPuts : BitVec 8
  tvIn : BitVec 8
  tvPutsp : BitVec 8
  tvHalt : BitVec 8
  /-- FLAG_P, FLAG_Z, FLAG_N, the three values COND can hold (R30, R31). -/
  flagP : BitVec 3
  flagZ : BitVec 3
  flagN : BitVec 3
  /-- IN_PROMPT, the bytes IN writes first (R176). -/
  inPrompt : List Byte
  /-- HALT_NOTICE, the bytes HALT writes (R180). -/
  haltNotice : List Byte
  deriving DecidableEq, Repr

/-- The six trap vectors, in the order of R171. -/
def Config.vectors (c : Config) : List (BitVec 8) :=
  [c.tvGetc, c.tvOut, c.tvPuts, c.tvIn, c.tvPutsp, c.tvHalt]

/-- The three flag values, POSITIVE, ZERO, NEGATIVE. -/
def Config.flags (c : Config) : List (BitVec 3) :=
  [c.flagP, c.flagZ, c.flagN]

/-- R7 (D24): KBSR and KBDR differ, the six vectors are pairwise distinct, the three flag values are the three
one-hot values in some order. (R7's fourth clause, on ORIGIN and IMAGE, is checked where a machine is built.) -/
def Config.wf (c : Config) : Bool :=
  decide (c.kbsr ≠ c.kbdr) && decide c.vectors.Nodup && decide c.flags.Nodup &&
    c.flags.all (fun f => decide (f ∈ [0b001#3, 0b010#3, 0b100#3]))

/-- A free value: what a host that nothing constrains delivers at its n-th turn (R55: "an input that no rule constrains",
D20). It has no body, so no proof can know a byte of it or that it holds any. Log 21. -/
opaque Config.freeBatch : Nat → List Byte

end Sys2Proof
end

