-- ==== Sys2Proof/Machine/Defaults.lean ====
section
/-! DEFINITION. The default values `00_scope.md` R6 gives its open parameters. All but ORIGIN are
"from general knowledge, not in source" by the spec's own mark: PRESUMED, log 4. -/

namespace Sys2Proof.Machine

/-- R6, D4: the default load origin. -/
def defaultOrigin : Word := 0x3000#16

/-- R6, D12: the 19 ASCII bytes of "Enter a character: ". PRESUMED, log 4. -/
def defaultPrompt : List Byte :=
  [0x45#8, 0x6E#8, 0x74#8, 0x65#8, 0x72#8, 0x20#8, 0x61#8, 0x20#8, 0x63#8, 0x68#8,
   0x61#8, 0x72#8, 0x61#8, 0x63#8, 0x74#8, 0x65#8, 0x72#8, 0x3A#8, 0x20#8]

/-- R6, D12: the bytes of "HALT" and a line feed. PRESUMED, log 4. -/
def defaultNotice : List Byte := [0x48#8, 0x41#8, 0x4C#8, 0x54#8, 0x0A#8]

/-- R6, D1, D2, D3, D12: every parameter at its default. PRESUMED, log 4; unsafe. -/
def defaultConfig : Config where
  kbsr := 0xFE00#16
  kbdr := 0xFE02#16
  tvGetc := 0x20#8
  tvOut := 0x21#8
  tvPuts := 0x22#8
  tvIn := 0x23#8
  tvPutsp := 0x24#8
  tvHalt := 0x25#8
  flagP := 0b001#3
  flagZ := 0b010#3
  flagN := 0b100#3
  inPrompt := defaultPrompt
  haltNotice := defaultNotice

end Sys2Proof.Machine
end

