-- ==== Sys2Proof/Syntax.lean ====
section
/-! DEFINITION. The instructions: one constructor per row of spec/opcode_table.json, in the table's order. -/

namespace Sys2Proof

/-- An instruction with its operand fields as `30_encoding.md` R82 names them. ADD and AND have two rows each, one per
value of the mode bit (R85). The bits no field covers are no part of an instruction (R90), with one exception: the three
constructors that end in a fatal condition keep the bits nothing looks at, because the report of R203 is the whole
instruction Word (log 11). -/
inductive Instr where
  /-- BR (R160): condition mask `nzp` = bits [11:9], offset. -/
  | br (nzp : BitVec 3) (off9 : BitVec 9)
  /-- ADD, register form (R130). -/
  | addReg (dr sr1 sr2 : Reg)
  /-- ADD, immediate form (R131). -/
  | addImm (dr sr1 : Reg) (imm5 : BitVec 5)
  /-- LD (R140). -/
  | ld (dr : Reg) (off9 : BitVec 9)
  /-- ST (R141). -/
  | st (sr : Reg) (off9 : BitVec 9)
  /-- JSR (R164). -/
  | jsr (off11 : BitVec 11)
  /-- JSRR (R166). -/
  | jsrr (base : Reg)
  /-- AND, register form (R132). -/
  | andReg (dr sr1 sr2 : Reg)
  /-- AND, immediate form (R133). -/
  | andImm (dr sr1 : Reg) (imm5 : BitVec 5)
  /-- LDR (R142). -/
  | ldr (dr base : Reg) (off6 : BitVec 6)
  /-- STR (R143). -/
  | str (sr base : Reg) (off6 : BitVec 6)
  /-- Opcode 1000 (R190), with bits [11:0]. -/
  | rsv1000 (low : BitVec 12)
  /-- NOT (R134). -/
  | not (dr sr : Reg)
  /-- LDI (R144). -/
  | ldi (dr : Reg) (off9 : BitVec 9)
  /-- STI (R145). -/
  | sti (sr : Reg) (off9 : BitVec 9)
  /-- JMP (R162). RET is JMP R7. -/
  | jmp (base : Reg)
  /-- Opcode 1101 (R191), with bits [11:0]. -/
  | rsv1101 (low : BitVec 12)
  /-- LEA (R146). -/
  | lea (dr : Reg) (off9 : BitVec 9)
  /-- TRAP with vector TV_GETC (R173). -/
  | getc
  /-- TRAP with vector TV_OUT (R174). -/
  | out
  /-- TRAP with vector TV_PUTS (R175). -/
  | puts
  /-- TRAP with vector TV_IN (R176). -/
  | inp
  /-- TRAP with vector TV_PUTSP (R177). -/
  | putsp
  /-- TRAP with vector TV_HALT (R180). -/
  | halt
  /-- TRAP with any other vector (R179): `ign` = bits [11:8], `vec` = bits [7:0]. -/
  | trap (ign : BitVec 4) (vec : BitVec 8)
  deriving DecidableEq, Repr

end Sys2Proof
end

