-- ==== Sys2Proof/WellFormed.lean ====
section
/-! DEFINITION. Which terms of Instr are instructions of a machine with a given configuration. -/

namespace Sys2Proof

/-- Every operand has the width of its field, so the types leave one check: the last row of the opcode table "applies
only when none of the six routine rows matches" (R97), so its vector is none of the six. -/
def Instr.wf (c : Config) (i : Instr) : Bool :=
  match i with
  | .trap _ vec => decide (vec ∉ c.vectors)
  | .br _ _ | .addReg _ _ _ | .addImm _ _ _ | .ld _ _ | .st _ _ | .jsr _ | .jsrr _ | .andReg _ _ _ | .andImm _ _ _
  | .ldr _ _ _ | .str _ _ _ | .rsv1000 _ | .not _ _ | .ldi _ _ | .sti _ _ | .jmp _ | .rsv1101 _ | .lea _ _
  | .getc | .out | .puts | .inp | .putsp | .halt => true

end Sys2Proof
end

