-- ==== Sys2Proof/Decode.lean ====
section
/-! DEFINITION. The fields of an instruction Word, the decoder, the encoder: `30_encoding.md` R80 to R97. -/

namespace Sys2Proof

/-! The fields of R82, each a contiguous range of bits. -/

/-- instr[15:12], the operation selector (R81). -/
def fieldOpcode (w : Word) : BitVec 4 := w.extractLsb' 12 4
/-- instr[11:9]: dr, the stores' sr, or BR's condition mask. -/
def fieldDr (w : Word) : BitVec 3 := w.extractLsb' 9 3
/-- instr[8:6]: sr1, NOT's sr, or base. -/
def fieldBase (w : Word) : BitVec 3 := w.extractLsb' 6 3
/-- instr[2:0]: sr2. -/
def fieldSr2 (w : Word) : BitVec 3 := w.extractLsb' 0 3
/-- instr[5]: the mode bit of ADD and AND (R85). -/
def fieldMode (w : Word) : BitVec 1 := w.extractLsb' 5 1
/-- instr[11]: the flag bit of opcode 0100 (R86). -/
def fieldFlag (w : Word) : BitVec 1 := w.extractLsb' 11 1
/-- instr[4:0]: imm5. -/
def fieldImm5 (w : Word) : BitVec 5 := w.extractLsb' 0 5
/-- instr[5:0]: off6. -/
def fieldOff6 (w : Word) : BitVec 6 := w.extractLsb' 0 6
/-- instr[8:0]: off9. -/
def fieldOff9 (w : Word) : BitVec 9 := w.extractLsb' 0 9
/-- instr[10:0]: off11. -/
def fieldOff11 (w : Word) : BitVec 11 := w.extractLsb' 0 11
/-- instr[7:0]: trapvec. -/
def fieldVec (w : Word) : BitVec 8 := w.extractLsb' 0 8
/-- instr[11:8]: the bits of TRAP no rule looks at. -/
def fieldTrapIgn (w : Word) : BitVec 4 := w.extractLsb' 8 4
/-- instr[11:0]: the bits of the reserved opcodes no rule looks at. -/
def fieldLow12 (w : Word) : BitVec 12 := w.extractLsb' 0 12

/-- Which row of the opcode table a TRAP is (R89, R97): the six routine rows by equality of the vector, in the order
of R171, else the last row. -/
def decodeTrap (c : Config) (ign : BitVec 4) (vec : BitVec 8) : Instr :=
  if vec = c.tvGetc then .getc
  else if vec = c.tvOut then .out
  else if vec = c.tvPuts then .puts
  else if vec = c.tvIn then .inp
  else if vec = c.tvPutsp then .putsp
  else if vec = c.tvHalt then .halt
  else .trap ign vec

/-- The decoder (R81, R83 to R86, R94, R113): a total function of the Word, since each of the 16 selectors has a row.
Nothing is rejected here; the illegal encodings of R91 and R92 are constructors of their own. -/
def decode (c : Config) (w : Word) : Instr :=
  if fieldOpcode w = 0b0000#4 then .br (fieldDr w) (fieldOff9 w)
  else if fieldOpcode w = 0b0001#4 then
    if fieldMode w = 0b0#1 then .addReg (fieldDr w) (fieldBase w) (fieldSr2 w)
    else .addImm (fieldDr w) (fieldBase w) (fieldImm5 w)
  else if fieldOpcode w = 0b0010#4 then .ld (fieldDr w) (fieldOff9 w)
  else if fieldOpcode w = 0b0011#4 then .st (fieldDr w) (fieldOff9 w)
  else if fieldOpcode w = 0b0100#4 then
    if fieldFlag w = 0b1#1 then .jsr (fieldOff11 w)
    else .jsrr (fieldBase w)
  else if fieldOpcode w = 0b0101#4 then
    if fieldMode w = 0b0#1 then .andReg (fieldDr w) (fieldBase w) (fieldSr2 w)
    else .andImm (fieldDr w) (fieldBase w) (fieldImm5 w)
  else if fieldOpcode w = 0b0110#4 then .ldr (fieldDr w) (fieldBase w) (fieldOff6 w)
  else if fieldOpcode w = 0b0111#4 then .str (fieldDr w) (fieldBase w) (fieldOff6 w)
  else if fieldOpcode w = 0b1000#4 then .rsv1000 (fieldLow12 w)
  else if fieldOpcode w = 0b1001#4 then .not (fieldDr w) (fieldBase w)
  else if fieldOpcode w = 0b1010#4 then .ldi (fieldDr w) (fieldOff9 w)
  else if fieldOpcode w = 0b1011#4 then .sti (fieldDr w) (fieldOff9 w)
  else if fieldOpcode w = 0b1100#4 then .jmp (fieldBase w)
  else if fieldOpcode w = 0b1101#4 then .rsv1101 (fieldLow12 w)
  else if fieldOpcode w = 0b1110#4 then .lea (fieldDr w) (fieldOff9 w)
  else decodeTrap c (fieldTrapIgn w) (fieldVec w)

/-- The encoder, the layouts of R83 written left to right, bit 15 first; ignored bits are 0 (R96). -/
def encode (c : Config) (i : Instr) : Word :=
  match i with
  | .br nzp off9 => 0b0000#4 ++ nzp ++ off9
  | .addReg dr sr1 sr2 => 0b0001#4 ++ dr ++ sr1 ++ 0b0#1 ++ 0b00#2 ++ sr2
  | .addImm dr sr1 imm5 => 0b0001#4 ++ dr ++ sr1 ++ 0b1#1 ++ imm5
  | .ld dr off9 => 0b0010#4 ++ dr ++ off9
  | .st sr off9 => 0b0011#4 ++ sr ++ off9
  | .jsr off11 => 0b0100#4 ++ 0b1#1 ++ off11
  | .jsrr base => 0b0100#4 ++ 0b0#1 ++ 0b00#2 ++ base ++ 0b000000#6
  | .andReg dr sr1 sr2 => 0b0101#4 ++ dr ++ sr1 ++ 0b0#1 ++ 0b00#2 ++ sr2
  | .andImm dr sr1 imm5 => 0b0101#4 ++ dr ++ sr1 ++ 0b1#1 ++ imm5
  | .ldr dr base off6 => 0b0110#4 ++ dr ++ base ++ off6
  | .str sr base off6 => 0b0111#4 ++ sr ++ base ++ off6
  | .rsv1000 low => 0b1000#4 ++ low
  | .not dr sr => 0b1001#4 ++ dr ++ sr ++ 0b000000#6
  | .ldi dr off9 => 0b1010#4 ++ dr ++ off9
  | .sti sr off9 => 0b1011#4 ++ sr ++ off9
  | .jmp base => 0b1100#4 ++ 0b000#3 ++ base ++ 0b000000#6
  | .rsv1101 low => 0b1101#4 ++ low
  | .lea dr off9 => 0b1110#4 ++ dr ++ off9
  | .getc => 0b1111#4 ++ 0b0000#4 ++ c.tvGetc
  | .out => 0b1111#4 ++ 0b0000#4 ++ c.tvOut
  | .puts => 0b1111#4 ++ 0b0000#4 ++ c.tvPuts
  | .inp => 0b1111#4 ++ 0b0000#4 ++ c.tvIn
  | .putsp => 0b1111#4 ++ 0b0000#4 ++ c.tvPutsp
  | .halt => 0b1111#4 ++ 0b0000#4 ++ c.tvHalt
  | .trap ign vec => 0b1111#4 ++ ign ++ vec

/-- The bits of a Word the decoder does not look at, as a mask (the dashes of R83; R90). -/
def ignoredBits (w : Word) : Word :=
  if fieldOpcode w = 0b0001#4 ∨ fieldOpcode w = 0b0101#4 then
    if fieldMode w = 0b0#1 then 0x0018#16 else 0x0000#16
  else if fieldOpcode w = 0b0100#4 then
    if fieldFlag w = 0b0#1 then 0x063F#16 else 0x0000#16
  else if fieldOpcode w = 0b1001#4 then 0x003F#16
  else if fieldOpcode w = 0b1100#4 then 0x0E3F#16
  else if fieldOpcode w = 0b1000#4 ∨ fieldOpcode w = 0b1101#4 then 0x0FFF#16
  else if fieldOpcode w = 0b1111#4 then 0x0F00#16
  else 0x0000#16

/-- The host's probe: an instruction is one 16-bit Word (R80), so the Word is the number itself; the decoder runs with
the default parameters, which the table's routine rows are written with (R97). -/
def decodeTableWord (nbits w : Nat) : Option Instr :=
  if nbits ≤ 16 ∧ w < 65536 then some (decode Machine.defaultConfig (BitVec.ofNat 16 w)) else none

end Sys2Proof
end

