-- ==== Sys2Proof/Machine/State.lean ====
section
/-! DEFINITION. The state of the core (`10_state.md` R20, R36; `60_exceptions.md` R203) as plain data, the ways a step
stops, and the state after reset. -/

namespace Sys2Proof.Machine

/-- RUN, the state of the dispatch loop (R34). -/
inductive RunState where
  | running
  | halted
  | fatal
  deriving DecidableEq, Repr

/-- The names of the two fatal conditions (R200 to R202). -/
inductive FatalCondition where
  | decodeError
  | unknownTrapVector
  deriving DecidableEq, Repr

/-- The report of a fatal condition: the pair (condition name, instruction Word) of R203. -/
structure FatalReport where
  cond : FatalCondition
  word : Word
  deriving DecidableEq, Repr

/-- Which routine is still under way inside its TRAP instruction (R39, R116, R178 (c)); the model's own, log 7, log 8.
In every constructor but `idle` RUN is RUNNING and no new instruction is fetched (R115). -/
inductive Busy where
  /-- No instruction is under way: the next step fetches. -/
  | idle
  /-- GETC waits for a byte (R39, R173). -/
  | getc
  /-- IN has written its prompt and waits for a byte (R39, R176). -/
  | inp
  /-- PUTS goes on with the string Word at this address (R175, R178). -/
  | puts (a : Word)
  /-- PUTSP goes on with the string Word at this address (R177, R178). -/
  | putsp (a : Word)
  deriving DecidableEq, Repr

/-- Memory: (address, Word) pairs, addresses strictly rising, no Word 0x0000 listed. A cell is a Word, not a byte:
"A model therefore stores Words, not bytes" (R58); log 1. -/
abbrev Memory := List (Nat × Word)

/-- What the host does once the deliveries it has listed are used up (R36, D20); log 5. -/
inductive HostAfter where
  /-- It delivers these batches in order, one per look, then the same again, for ever. With no batch, or none but empty ones,
  it has fallen silent (R39). -/
  | again (round : List (List Byte))
  /-- It delivers whatever it likes: the free value at its n-th turn, then at the next, for ever (log 21). -/
  | anything (n : Nat)
  deriving DecidableEq, Repr

/-- The host's deliveries to come, one batch (any number of bytes, none included) before each coming look of the core at KQ
(R36, D20); log 5. -/
structure HostPlan where
  /-- The batches of the next looks, next look first. -/
  soon : List (List Byte)
  /-- What comes after them, without end. -/
  after : HostAfter
  deriving DecidableEq, Repr

/-- A host that delivers nothing more. -/
def HostPlan.silent : HostPlan := { soon := [], after := .again [] }

/-- The state of the machine. INVENTORY.md, section State, has the rule and reset value of every field. -/
structure State where
  /-- R0..R7 (R22). -/
  x : Vector Word 8
  /-- The program counter (R26). -/
  pc : Word
  /-- COND, the condition flags (R30). -/
  cond : BitVec 3
  /-- RUN (R34). -/
  run : RunState
  /-- MEM (R35, R50). -/
  mem : Memory
  /-- KQ: the bytes delivered and not yet consumed, oldest first (R36). -/
  kq : List Byte
  /-- What the host delivers before each coming look of the core at KQ, without end (R36, D20); log 5. -/
  arrivals : HostPlan
  /-- OUTQ: the bytes written, oldest first (R36). -/
  outq : List Byte
  /-- How many bytes of OUTQ have been flushed (R36, R41). -/
  flushed : Nat
  /-- The routine still under way, if any (log 7, log 8). -/
  busy : Busy
  /-- The fatal report on the status output (R203). -/
  report : Option FatalReport
  /-- The parameters of R6, fixed for the machine; no step changes them. -/
  cfg : Config
  deriving DecidableEq, Repr

/-- Why a step takes no next state. -/
inductive Fault where
  /-- Raised by `step` when the instruction it ran raised DecodeError (R201): the instruction Word, and the state at
  FATAL (R204). The spec's own fault ("a model's step returns the fault, never a next state", U1, U2); safe. Log 9. -/
  | decodeError (word : Word) (final : State)
  /-- Raised by `step` when the instruction it ran raised UnknownTrapVector (R202): the instruction Word, and the state
  at FATAL (R204). The spec's own fault (U3); safe. Log 9. -/
  | unknownTrapVector (word : Word) (final : State)
  /-- Raised by `step` in a state whose RUN is HALTED: the run has ended normally and "the step relation has no
  successor" (R212, U23); safe. Log 10. -/
  | afterHalt
  /-- Raised by `step` in a state whose RUN is FATAL: as above (R212, U23); safe. Log 10. -/
  | afterFatal
  deriving DecidableEq, Repr

/-- What the model gives no meaning. -/
inductive Refusal where
  /-- Raised by `exec` for an instruction without a meaning. No arm raises it: every instruction has one. Safe. -/
  | notModelled (mnemonic : String)
  /-- Raised by `createMachine` (Machine/Reset.lean), never by a step: the reset inputs break R7 or R236 ("a model refuses
  such a configuration", D18, D24). Safe. Log 15. -/
  | badConfiguration
  deriving DecidableEq, Repr

/-- The machine right after reset (R42, R231), with the parameters at their defaults (log 4), ORIGIN 0x3000, an empty
image and no input from the host (log 6, log 14). R0..R7 are not stated by the spec: DESIGN CHOICE 0x0000, log 3, unsafe. -/
def State.reset : State where
  x := Vector.replicate 8 0x0000#16
  pc := defaultOrigin
  cond := defaultConfig.flagZ
  run := .running
  mem := []
  kq := []
  arrivals := .silent
  outq := []
  flushed := 0
  busy := .idle
  report := none
  cfg := defaultConfig

end Sys2Proof.Machine
end

