-- ==== Sys2Proof/Machine/Ops.lean ====
section
/-! DEFINITION. The named operations over registers, memory, the console and the run state: the primitives of
`00_scope.md` R12. -/

namespace Sys2Proof.Machine

/-! Registers and the program counter. -/

/-- `x[r]` (R22). -/
def State.reg (s : State) (r : Reg) : Word := s.x[r.toNat]'r.isLt

/-- `x[r] <- v` (R22). No register is hardwired. -/
def State.setReg (s : State) (r : Reg) (v : Word) : State := { s with x := s.x.set r.toNat v r.isLt }

/-- `pc <- target` (R26). Every value is legal. -/
def State.setPc (s : State) (target : Word) : State := { s with pc := target }

/-- `COND <- f` (R30). -/
def State.setCond (s : State) (f : BitVec 3) : State := { s with cond := f }

/-- `RUN <- r` (R34). -/
def State.setRun (s : State) (r : RunState) : State := { s with run := r }

/-- Which routine is still under way (log 7, log 8). -/
def State.setBusy (s : State) (b : Busy) : State := { s with busy := b }

/-! The storage of the AddressSpace (R50): a list in canonical form (log 1). -/

/-- The Word at an address. An address that is not listed reads 0x0000, the reset content of memory (R35). -/
def memGet (m : Memory) (a : Nat) : Word :=
  match m with
  | [] => 0x0000#16
  | (k, v) :: rest => if a < k then 0x0000#16 else if a = k then v else memGet rest a

/-- The list without the entries at or below an address (nothing to do on a canonical list past that address). -/
def memAbove (m : Memory) (a : Nat) : Memory :=
  match m with
  | [] => []
  | (k, v) :: rest => if k ≤ a then memAbove rest a else (k, v) :: rest

/-- Store a Word at an address, keeping the canonical form: storing 0x0000 removes the entry. -/
def memSet (m : Memory) (a : Nat) (v : Word) : Memory :=
  match m with
  | [] => if v = 0x0000#16 then [] else [(a, v)]
  | (k, w) :: rest =>
    if k < a then (k, w) :: memSet rest a v
    else
      let above := memAbove ((k, w) :: rest) a
      if v = 0x0000#16 then above else (a, v) :: above

/-- The canonical form from a lower bound on: addresses strictly rising, within the address space (R5), no Word 0x0000. -/
def memWfFrom (low : Nat) (m : Memory) : Bool :=
  match m with
  | [] => true
  | (k, v) :: rest => decide (low ≤ k) && decide (k < 65536) && decide (v ≠ 0x0000#16) && memWfFrom (k + 1) rest

/-- The canonical form of memory. -/
def Memory.wf (m : Memory) : Bool := memWfFrom 0 m

/-- `MEM[a]`, raw, with no device interception (R12). -/
def State.peek (s : State) (a : Word) : Word := memGet s.mem a.toNat

/-- `MEM[a] <- v`, raw (R12). -/
def State.poke (s : State) (a v : Word) : State := { s with mem := memSet s.mem a.toNat v }

/-! The console (R36 to R41). -/

/-- The Word with the same unsigned value as a byte (R11). -/
def zext8 (b : Byte) : Word := b.zeroExtend 16

/-- v[7:0]. -/
def lowByte (v : Word) : Byte := v.extractLsb' 0 8

/-- v[15:8]. -/
def highByte (v : Word) : Byte := v.extractLsb' 8 8

/-- The batch the host delivers before the next look, and the deliveries left to come after it (log 5). -/
def nextBatch (p : HostPlan) : List Byte × HostPlan :=
  match p.soon with
  | batch :: rest => (batch, { p with soon := rest })
  | [] =>
    match p.after with
    | .again [] => ([], p)
    | .again (batch :: rest) => (batch, { p with soon := rest })
    | .anything n => (Config.freeBatch n, { p with after := .anything (n + 1) })

/-- What the host has delivered by the next look of the core at its input queue: the next batch joins KQ at its end (R36,
R71, D20). "The host may append a byte to KQ at any moment ... the core cannot observe when, only whether KQ is empty at
the moment it polls", so one batch per look gives every host schedule (log 5). -/
def hostTurn (s : State) : State :=
  { s with kq := s.kq ++ (nextBatch s.arrivals).1, arrivals := (nextBatch s.arrivals).2 }

/-- The input queue with other bytes pending (R36). -/
def State.setKq (s : State) (q : List Byte) : State := { s with kq := q }

/-- `ConsoleGet()` (R39), at the moment the core looks: the oldest byte is removed and returned, or there is none and the
core has to wait. -/
def takeByte (s : State) : Option (Byte × State) :=
  match s.kq with
  | [] => none
  | b :: later => some (b, s.setKq later)

/-- `ConsolePut(b)` (R40). -/
def consolePut (b : Byte) (s : State) : State := { s with outq := s.outq ++ [b] }

/-- ConsolePut of each byte of a list in order. -/
def consolePuts (bs : List Byte) (s : State) : State :=
  match bs with
  | [] => s
  | b :: rest => consolePuts rest (consolePut b s)

/-- `ConsoleFlush()` (R41): every byte written so far counts as delivered. -/
def consoleFlush (s : State) : State := { s with flushed := s.outq.length }

/-! The two access primitives (R51). -/

/-- What a read at KBSR does before the Word is read (R52 to R54): the poll (R38), then either the ready Word 0x8000 and
the oldest byte latched at KBDR and consumed, or the Word 0x0000. It completes either way: "the status poll does not block"
(R246). -/
def keyboardPoll (s : State) : State :=
  match takeByte (hostTurn s) with
  | some (b, t) => (t.poke t.cfg.kbsr 0x8000#16).poke t.cfg.kbdr (zext8 b)
  | none => (hostTurn s).poke s.cfg.kbsr 0x0000#16

/-- `MemRead(a, 1)` (R52): the Word, and the state the read leaves. -/
def memRead (s : State) (a : Word) : Word × State :=
  if a = s.cfg.kbsr then ((keyboardPoll s).peek a, keyboardPoll s) else (s.peek a, s)

/-- `MemWrite(a, 1, v)` (R56): "stores unconditionally", never intercepted. -/
def memWrite (a v : Word) (s : State) : State := s.poke a v

/-! Taking an exception, trap entry, and the instruction cycle's two ends. -/

/-- `raise c(w)` (R200, R203): the one exception the core takes. RUN becomes FATAL and the pair (condition, instruction
Word) is reported; no register is saved, pc is not moved, nothing else changes (R204, R208). There is no return from it. -/
def raiseFatal (c : FatalCondition) (w : Word) (s : State) : State :=
  { s with run := .fatal, report := some { cond := c, word := w } }

/-- The link write `x[7] <- pc` of JSR, JSRR and TRAP (R163, R170), which is all that trap entry saves (R208). It does not
touch COND. Nothing undoes it: a routine returns by finishing (R209). -/
def link (s : State) : State := s.setReg 7#3 s.pc

/-- Fetch and advance (R110 to R112): the Word read with MemRead at pc, then pc + 1 modulo 65536. -/
def fetch (s : State) : Word × State :=
  let r := memRead s s.pc
  (r.1, r.2.setPc (r.2.pc + 1#16))

/-- The fault a step reports for a state at FATAL (R121, R203; log 9). A state at FATAL without a report is reached by no
instruction. -/
def fatalFault (s : State) : Fault :=
  match s.report with
  | some { cond := .decodeError, word := w } => .decodeError w s
  | some { cond := .unknownTrapVector, word := w } => .unknownTrapVector w s
  | none => .afterFatal

/-- The end of a step: "a model's step returns the fault, never a next state" (U1 to U3) where the instruction ended in
FATAL; any other outcome stands. -/
def endStep (o : Host.Outcome State Fault Refusal) : Host.Outcome State Fault Refusal :=
  match o with
  | .next t => if t.run = .fatal then .fault (fatalFault t) else .next t
  | .fault f => .fault f
  | .refused r => .refused r

end Sys2Proof.Machine
end

