-- ==== Sys2Proof/Machine/Flags.lean ====
section
/-! DEFINITION. The ConditionFlagUpdater: `40_instruction_cycle.md` R117 to R119. -/

namespace Sys2Proof.Machine

/-- The flag that describes a Word (R118): ZERO, NEGATIVE when bit 15 is set, else POSITIVE. -/
def flagOf (c : Config) (v : Word) : BitVec 3 :=
  if v = 0x0000#16 then c.flagZ else if v.msb then c.flagN else c.flagP

/-- `setcc(r)` (R118): reads x[r] after the instruction wrote it, writes COND and nothing else. -/
def setcc (r : Reg) (s : State) : State := s.setCond (flagOf s.cfg (s.reg r))

/-- The common end of every flag-updating instruction (R117): `x[dr] <- v`, then `setcc(dr)`. -/
def writeResult (dr : Reg) (v : Word) (s : State) : State := setcc dr (s.setReg dr v)

/-- BR's test `cond & COND != 0` (R160). -/
def condHolds (nzp : BitVec 3) (s : State) : Bool := decide (nzp &&& s.cond ≠ 0b000#3)

end Sys2Proof.Machine
end

