-- ==== Sys2Proof/Machine/Operands.lean ====
section
/-! DEFINITION. The operand forms: sign extension (R10), the addressing modes (R147), the branch targets. In every one of
them `pc` is already the address of the following instruction (R27, R112). -/

namespace Sys2Proof.Machine

/-- `sext_n` of an n-bit field (R10): bit n-1 replicated into all higher bits. -/
def sext {n : Nat} (v : BitVec n) : Word := v.signExtend 16

/-- pc-relative address or target (R147 (1), R160): `pc + sext_9(off9)`, modulo 65536. -/
def addrPc9 (s : State) (off9 : BitVec 9) : Word := s.pc + sext off9

/-- The target of JSR (R164): `pc + sext_11(off11)`, modulo 65536. -/
def addrPc11 (s : State) (off11 : BitVec 11) : Word := s.pc + sext off11

/-- Base plus offset (R147 (2)): `x[base] + sext_6(off6)`, modulo 65536. -/
def addrBase6 (s : State) (base : Reg) (off6 : BitVec 6) : Word := s.reg base + sext off6

/-- Indirect (R147 (3), R144, R145): the pointer Word, read with MemRead at the pc-relative address, and the state the
read leaves. -/
def readPointer (s : State) (off9 : BitVec 9) : Word × State := memRead s (addrPc9 s off9)

end Sys2Proof.Machine
end

