-- ==== Sys2Proof/Machine/Control.lean ====
section
/-! DEFINITION. BR, JMP, JSR, JSRR: `43_control.md` R160 to R168. -/

namespace Sys2Proof.Machine

/-- BR (R160, R161). -/
def execBr (nzp : BitVec 3) (off9 : BitVec 9) (s : State) : Host.Outcome State Fault Refusal :=
  .next (if condHolds nzp s then s.setPc (addrPc9 s off9) else s)

/-- JMP (R162); JMP R7 is the return. -/
def execJmp (base : Reg) (s : State) : Host.Outcome State Fault Refusal :=
  .next (s.setPc (s.reg base))

/-- JSR (R163, R164): the link write first, then the target from the same advanced pc. -/
def execJsr (off11 : BitVec 11) (s : State) : Host.Outcome State Fault Refusal :=
  let t := link s
  .next (t.setPc (addrPc11 t off11))

/-- JSRR (R163, R166): the link write first and the base read after it, so JSRR R7 falls through (D7, log 19). -/
def execJsrr (base : Reg) (s : State) : Host.Outcome State Fault Refusal :=
  let t := link s
  .next (t.setPc (t.reg base))

end Sys2Proof.Machine
end

