-- ==== Sys2Proof/Machine/LoadStore.lean ====
section
/-! DEFINITION. LD, ST, LDR, STR, LDI, STI, LEA: `42_load_store.md` R140 to R150. -/

namespace Sys2Proof.Machine

/-- The common end of the loads (R148, R149): `x[dr] <- MemRead(a, 1)`, then `setcc(dr)`. -/
def loadFrom (a : Word) (dr : Reg) (s : State) : State :=
  let r := memRead s a
  writeResult dr r.1 r.2

/-- LD (R140). -/
def execLd (dr : Reg) (off9 : BitVec 9) (s : State) : Host.Outcome State Fault Refusal :=
  .next (loadFrom (addrPc9 s off9) dr s)

/-- ST (R141). -/
def execSt (sr : Reg) (off9 : BitVec 9) (s : State) : Host.Outcome State Fault Refusal :=
  .next (memWrite (addrPc9 s off9) (s.reg sr) s)

/-- LDR (R142). -/
def execLdr (dr base : Reg) (off6 : BitVec 6) (s : State) : Host.Outcome State Fault Refusal :=
  .next (loadFrom (addrBase6 s base off6) dr s)

/-- STR (R143). -/
def execStr (sr base : Reg) (off6 : BitVec 6) (s : State) : Host.Outcome State Fault Refusal :=
  .next (memWrite (addrBase6 s base off6) (s.reg sr) s)

/-- LDI (R144): the pointer read, then the data read, each a MemRead. -/
def execLdi (dr : Reg) (off9 : BitVec 9) (s : State) : Host.Outcome State Fault Refusal :=
  let p := readPointer s off9
  .next (loadFrom p.1 dr p.2)

/-- STI (R145): the pointer read, then the store, which is not intercepted. -/
def execSti (sr : Reg) (off9 : BitVec 9) (s : State) : Host.Outcome State Fault Refusal :=
  let p := readPointer s off9
  .next (memWrite p.1 (p.2.reg sr) p.2)

/-- LEA (R146): no memory access; the flags are updated. -/
def execLea (dr : Reg) (off9 : BitVec 9) (s : State) : Host.Outcome State Fault Refusal :=
  .next (writeResult dr (addrPc9 s off9) s)

end Sys2Proof.Machine
end

