-- ==== Sys2Proof/Machine/Reserved.lean ====
section
/-! DEFINITION. The two unimplemented opcodes: `45_reserved.md` R190 to R192. -/

namespace Sys2Proof.Machine

/-- Opcode 1000 (R190): raise DecodeError with the instruction Word. -/
def execRsv1000 (low : BitVec 12) (s : State) : Host.Outcome State Fault Refusal :=
  .next (raiseFatal .decodeError (0b1000#4 ++ low) s)

/-- Opcode 1101 (R191): raise DecodeError with the instruction Word. -/
def execRsv1101 (low : BitVec 12) (s : State) : Host.Outcome State Fault Refusal :=
  .next (raiseFatal .decodeError (0b1101#4 ++ low) s)

end Sys2Proof.Machine
end

