-- ==== Sys2Proof/Machine/Trap.lean ====
section
/-! DEFINITION. TRAP, its dispatch and the six routines: `44_trap.md` R170 to R181. -/

namespace Sys2Proof.Machine

/-! The routines that read the console (R173, R176). `ConsoleGet` blocks while nothing is pending (R39): the routine then
stays under way, RUN stays RUNNING, and each later step is one more look (log 7). -/

/-- GETC from its ConsoleGet on (R173); it blocks while nothing is pending (R39, R246). -/
def getcRead (s : State) : State :=
  match takeByte (hostTurn s) with
  | some (b, t) => writeResult 0#3 (zext8 b) (t.setBusy .idle)
  | none => (hostTurn s).setBusy .getc

/-- IN from its ConsoleGet on (R176): the byte, its echo, a flush, then R0 and the flags; it blocks like GETC (R39, R246). -/
def inRead (s : State) : State :=
  match takeByte (hostTurn s) with
  | some (b, t) => writeResult 0#3 (zext8 b) ((consoleFlush (consolePut b t)).setBusy .idle)
  | none => (hostTurn s).setBusy .inp

/-! The string scan of PUTS and PUTSP (R175, R177, R178). -/

/-- What PUTS writes for a string Word (R175): its low byte. -/
def putsBytes (w : Word) : List Byte := [lowByte w]

/-- What PUTSP writes for a string Word (R177): the low byte, then the high byte if it is not zero. -/
def putspBytes (w : Word) : List Byte :=
  if highByte w = 0x00#8 then [lowByte w] else [lowByte w, highByte w]

/-- Up to `n` Words of a string scan from address `a` (R175, R177): read with MemRead; at a zero Word flush and be done,
else write the Word's bytes and go on at a + 1 modulo 65536. After `n` Words the routine is still under way (log 8). -/
def scanString (bytes : Word → List Byte) (underWay : Word → Busy) (n : Nat) (a : Word) (s : State) : State :=
  match n with
  | 0 => s.setBusy (underWay a)
  | n + 1 =>
    let r := memRead s a
    if r.1 = 0x0000#16 then (consoleFlush r.2).setBusy .idle
    else scanString bytes underWay n (a + 1#16) (consolePuts (bytes r.1) r.2)

/-- How many Words of a string one step scans: once round the whole memory (log 8). -/
def scanLap : Nat := 65536

/-- The PUTS scan from an address on. -/
def putsScan (a : Word) (s : State) : State := scanString putsBytes .puts scanLap a s

/-- The PUTSP scan from an address on. -/
def putspScan (a : Word) (s : State) : State := scanString putspBytes .putsp scanLap a s

/-! The routines, after the link write of R170. -/

/-- GETC (R173). -/
def routineGetc (s : State) : State := getcRead s

/-- OUT (R174). -/
def routineOut (s : State) : State := consoleFlush (consolePut (lowByte (s.reg 0#3)) s)

/-- PUTS (R175). -/
def routinePuts (s : State) : State := putsScan (s.reg 0#3) s

/-- IN (R176): the prompt and its flush come before the wait. -/
def routineIn (s : State) : State := inRead (consoleFlush (consolePuts s.cfg.inPrompt s))

/-- PUTSP (R177). -/
def routinePutsp (s : State) : State := putspScan (s.reg 0#3) s

/-- HALT (R180). -/
def routineHalt (s : State) : State := (consoleFlush (consolePuts s.cfg.haltNotice s)).setRun .halted

/-- The dispatch of R171: by equality of the vector alone; no Word of memory is read. An undefined vector raises
UnknownTrapVector with the instruction Word `w` (R179). -/
def dispatchTrap (vec : BitVec 8) (w : Word) (s : State) : State :=
  if vec = s.cfg.tvGetc then routineGetc s
  else if vec = s.cfg.tvOut then routineOut s
  else if vec = s.cfg.tvPuts then routinePuts s
  else if vec = s.cfg.tvIn then routineIn s
  else if vec = s.cfg.tvPutsp then routinePutsp s
  else if vec = s.cfg.tvHalt then routineHalt s
  else raiseFatal .unknownTrapVector w s

/-- The next look or lap of a routine that is still under way (log 7, log 8). -/
def resumeRoutine (s : State) : State :=
  match s.busy with
  | .idle => s
  | .getc => getcRead s
  | .inp => inRead s
  | .puts a => putsScan a s
  | .putsp a => putspScan a s

/-! The meanings: the link write (R170), then the routine. pc is not changed (R172). -/

/-- TRAP with vector TV_GETC (R170, R173). -/
def execGetc (s : State) : Host.Outcome State Fault Refusal := .next (routineGetc (link s))

/-- TRAP with vector TV_OUT (R170, R174). -/
def execOut (s : State) : Host.Outcome State Fault Refusal := .next (routineOut (link s))

/-- TRAP with vector TV_PUTS (R170, R175). -/
def execPuts (s : State) : Host.Outcome State Fault Refusal := .next (routinePuts (link s))

/-- TRAP with vector TV_IN (R170, R176). -/
def execIn (s : State) : Host.Outcome State Fault Refusal := .next (routineIn (link s))

/-- TRAP with vector TV_PUTSP (R170, R177). -/
def execPutsp (s : State) : Host.Outcome State Fault Refusal := .next (routinePutsp (link s))

/-- TRAP with vector TV_HALT (R170, R180). -/
def execHalt (s : State) : Host.Outcome State Fault Refusal := .next (routineHalt (link s))

/-- TRAP with any vector (R170, R171, R179): on a well-formed instruction the vector is none of the six and the dispatch
raises UnknownTrapVector; on an ill-formed one it runs the routine the vector selects (log 17). -/
def execTrap (ign : BitVec 4) (vec : BitVec 8) (s : State) : Host.Outcome State Fault Refusal :=
  .next (dispatchTrap vec (0b1111#4 ++ ign ++ vec) (link s))

end Sys2Proof.Machine
end

