-- ==== Sys2Proof/Machine/Step.lean ====
section
/-! DEFINITION. One step of the core: `40_instruction_cycle.md` R110, `60_exceptions.md` R212. -/

namespace Sys2Proof.Machine

/-- While RUN is RUNNING: fetch, advance, decode, execute (R110), or one more look or lap of a routine still under way
(log 7, log 8). A state at HALTED or FATAL has no successor (R212). An instruction that ended in FATAL is reported as the
step's fault (log 9). No fetch while a routine is under way: "instructions run one after another to completion" (R246). -/
def step (s : State) : Host.Outcome State Fault Refusal :=
  match s.run with
  | .halted => .fault .afterHalt
  | .fatal => .fault .afterFatal
  | .running =>
    if s.busy = .idle then endStep (exec (decode s.cfg (fetch s).1) (fetch s).2)
    else .next (resumeRoutine s)

/-- `s` with the instruction Word `w` stored where the next step fetches, RUN at RUNNING and no routine under way. One Word
per instruction (R80), so `nbits` plays no part. Where pc is KBSR no stored Word can be fetched (R111). Log 14. -/
def State.withFetchWord (s : State) (_nbits w : Nat) : State :=
  ((s.poke s.pc (BitVec.ofNat 16 w)).setRun .running).setBusy .idle

end Sys2Proof.Machine
end

