-- ==== Sys2Proof/Machine/Reset.lean ====
section
/-! DEFINITION. Reset for any inputs: `70_reset_and_hazards.md` R230 to R236, `10_state.md` R42. -/

namespace Sys2Proof.Machine

/-- The bytes of an image file read as big-endian Words (R235), none if a byte is left over (U10, log 18). -/
def bigEndianWords (bytes : List Byte) : Option (List Word) :=
  match bytes with
  | [] => some []
  | [_] => none
  | hi :: lo :: rest => (bigEndianWords rest).map ((hi ++ lo : Word) :: ·)

/-- An image file (R235): its first Word is ORIGIN, the others are IMAGE. None for a file with an odd number of bytes or
fewer than two, which is "outside this spec" (U10, log 18). -/
def imageOfFile (bytes : List Byte) : Option (Word × List Word) :=
  match bigEndianWords bytes with
  | some (origin :: image) => some (origin, image)
  | _ => none

/-- IMAGE placed in memory from an address on (R236). -/
def placeImage (image : List Word) (a : Nat) (m : Memory) : Memory :=
  match image with
  | [] => m
  | w :: rest => placeImage rest (a + 1) (memSet m a w)

/-- The machine right after reset (R42, R231) for any configuration, any registers (GPR_RESET, R25), any ORIGIN and IMAGE,
and any host (input delivered by now and later, D20). Inputs that break R7 or R236 are refused (D18, D24, log 15). -/
def createMachine (cfg : Config) (gpr : Vector Word 8) (origin : Word) (image : List Word)
    (pending : List Byte) (arrivals : HostPlan) : Except Refusal State :=
  if cfg.wf && decide (origin.toNat + image.length ≤ 65536) then
    .ok { x := gpr, pc := origin, cond := cfg.flagZ, run := .running, mem := placeImage image origin.toNat [],
          kq := pending, arrivals := arrivals, outq := [], flushed := 0, busy := .idle, report := none, cfg := cfg }
  else .error .badConfiguration

end Sys2Proof.Machine
end

