-- ==== Sys2Proof/Safety.lean ====
section
/-! DEFINITION. The terms claims are made in: what a step keeps, the invariant of the machine, when a run has gone wrong, and
the spec's string loop as a relation. -/

namespace Sys2Proof.Machine

/-! Frames: what a state keeps of an earlier one. -/

/-- Every general register outside the list is unchanged. -/
def KeepsRegsBut (changed : List Reg) (s t : State) : Prop := ∀ r, r ∉ changed → t.reg r = s.reg r

/-- Every Word of memory outside the list is unchanged. -/
def KeepsMemoryBut (changed : List Word) (s t : State) : Prop := ∀ a, a ∉ changed → t.peek a = s.peek a

/-- Every Word of memory is unchanged. -/
def KeepsMemory (s t : State) : Prop := ∀ a, t.peek a = s.peek a

/-- The input side of the console is unchanged. -/
def KeepsInput (s t : State) : Prop := t.kq = s.kq ∧ t.arrivals = s.arrivals

/-- The output side of the console is unchanged. -/
def KeepsOutput (s t : State) : Prop := t.outq = s.outq ∧ t.flushed = s.flushed

/-- RUN, the fatal report, the routine under way and the parameters are unchanged. -/
def KeepsControl (s t : State) : Prop := t.run = s.run ∧ t.report = s.report ∧ t.busy = s.busy ∧ t.cfg = s.cfg

/-- Everything but the registers in the list, pc and COND is unchanged. -/
def KeepsAllBut (changed : List Reg) (s t : State) : Prop :=
  KeepsRegsBut changed s t ∧ KeepsMemory s t ∧ KeepsInput s t ∧ KeepsOutput s t ∧ KeepsControl s t

/-- Memory and the input side are as a read at `a` leaves them (R52), and exactly as before when `a` is not KBSR (R55). -/
def AfterRead (a : Word) (s t : State) : Prop :=
  (∀ b, t.peek b = (memRead s a).2.peek b) ∧ t.kq = (memRead s a).2.kq ∧ t.arrivals = (memRead s a).2.arrivals ∧
  (a ≠ s.cfg.kbsr → KeepsMemory s t ∧ KeepsInput s t)

/-! The invariant. -/

/-- What holds in every reachable state (State.Inv is met at reset and kept by every step). -/
structure State.Inv (s : State) : Prop where
  /-- The parameters meet R7. -/
  config : s.cfg.wf = true
  /-- COND is one of the three flag values (R30, R119). -/
  oneFlag : s.cond ∈ s.cfg.flags
  /-- Memory is in canonical form (log 1). -/
  memory : s.mem.wf = true
  /-- No byte is flushed that was not written (R41). -/
  flush : s.flushed ≤ s.outq.length
  /-- There is a fatal report exactly at FATAL (R203). -/
  report : s.report = none ↔ s.run ≠ .fatal
  /-- A routine is under way only while RUN is RUNNING (R39, R178 (c)). -/
  underWay : s.busy ≠ .idle → s.run = .running

/-! Input to come. -/

/-- The bytes the host delivers before the next `n` looks, in order. -/
def upcoming (n : Nat) (p : HostPlan) : List Byte :=
  match n with
  | 0 => []
  | n + 1 => (nextBatch p).1 ++ upcoming n (nextBatch p).2

/-- The host's deliveries still to come after the next `n` looks. -/
def planAfter (n : Nat) (p : HostPlan) : HostPlan :=
  match n with
  | 0 => p
  | n + 1 => planAfter n (nextBatch p).2

/-- From `s` to `t` the core looked at its input some number of times, the host delivered what it had for those looks and
nothing else, and what is pending is what was, with that behind it, but for some of the oldest bytes (R36, R55, R71). -/
def InputMoves (s t : State) : Prop :=
  ∃ looks, t.arrivals = planAfter looks s.arrivals ∧ t.kq <:+ s.kq ++ upcoming looks s.arrivals

/-! Runs. -/

/-- "The model must treat a run that ends in FATAL as having gone wrong" (R121). -/
def WentWrong (o : Host.Outcome State Fault Refusal) : Prop :=
  ∃ w t, o = .fault (.decodeError w t) ∨ o = .fault (.unknownTrapVector w t)

/-- A run that never goes wrong. -/
def SafeRun (s : State) : Prop := ∀ k, ¬ WentWrong (Host.Core.run Sys2Proof.core k s)

/-- The outcome with the fatal report left out, to compare runs of two Words that differ in ignored bits (R90, log 11). -/
def withoutReport (o : Host.Outcome State Fault Refusal) : Host.Outcome State Fault Refusal :=
  match o with
  | .next t => .next { t with report := none }
  | .fault f => .fault f
  | .refused r => .refused r

/-! The string loop of R175 and R177, as the pseudocode has it. -/

/-- `StringLoop bytes n a s t`: the loop entered with running address `a` in state `s` reads `n` Words, the last of them zero,
and leaves `t`, flushed. `bytes` is what the routine writes for one Word. -/
inductive StringLoop (bytes : Word → List Byte) : Nat → Word → State → State → Prop where
  /-- The Word read is 0x0000: exit the loop and flush. -/
  | exit (a : Word) (s : State) (h : (memRead s a).1 = 0x0000#16) :
      StringLoop bytes 1 a s (consoleFlush (memRead s a).2)
  /-- The Word read is not 0x0000: write its bytes and go on at a + 1, modulo 65536. -/
  | again (n : Nat) (a : Word) (s t : State) (h : (memRead s a).1 ≠ 0x0000#16)
      (rest : StringLoop bytes n (a + 1#16) (consolePuts (bytes (memRead s a).1) (memRead s a).2) t) :
      StringLoop bytes (n + 1) a s t

/-- The Words of a list stand in memory from an address up (modulo 65536), away from KBSR. -/
def StringAt (ws : List Word) (a : Word) (s : State) : Prop :=
  match ws with
  | [] => True
  | w :: rest => a ≠ s.cfg.kbsr ∧ s.peek a = w ∧ StringAt rest (a + 1#16) s

/-! Sets of instructions. -/

/-- The destination register of a flag-updating instruction (R117), none for the others. -/
def flagDest (i : Instr) : Option Reg :=
  match i with
  | .addReg dr _ _ | .addImm dr _ _ | .andReg dr _ _ | .andImm dr _ _ | .not dr _ | .ld dr _ | .ldi dr _ | .ldr dr _ _
  | .lea dr _ => some dr
  | .getc | .inp => some 0#3
  | .br _ _ | .st _ _ | .jsr _ | .jsrr _ | .str _ _ _ | .rsv1000 _ | .sti _ _ | .jmp _ | .rsv1101 _
  | .out | .puts | .putsp | .halt | .trap _ _ => none

/-- JSR, JSRR and TRAP, which write the link register (R163, R170). -/
def isLinking (i : Instr) : Bool :=
  match i with
  | .jsr _ | .jsrr _ | .getc | .out | .puts | .inp | .putsp | .halt | .trap _ _ => true
  | .br _ _ | .addReg _ _ _ | .addImm _ _ _ | .ld _ _ | .st _ _ | .andReg _ _ _ | .andImm _ _ _ | .ldr _ _ _
  | .str _ _ _ | .rsv1000 _ | .not _ _ | .ldi _ _ | .sti _ _ | .jmp _ | .rsv1101 _ | .lea _ _ => false

/-- The six routines (R171). -/
def isRoutine (i : Instr) : Bool :=
  match i with
  | .getc | .out | .puts | .inp | .putsp | .halt => true
  | .br _ _ | .addReg _ _ _ | .addImm _ _ _ | .ld _ _ | .st _ _ | .jsr _ | .jsrr _ | .andReg _ _ _ | .andImm _ _ _
  | .ldr _ _ _ | .str _ _ _ | .rsv1000 _ | .not _ _ | .ldi _ _ | .sti _ _ | .jmp _ | .rsv1101 _ | .lea _ _
  | .trap _ _ => false

/-- The instructions that raise a fatal condition (R205: only these), with the condition and the instruction Word. -/
def fatalOf (i : Instr) : Option FatalReport :=
  match i with
  | .rsv1000 low => some { cond := .decodeError, word := 0b1000#4 ++ low }
  | .rsv1101 low => some { cond := .decodeError, word := 0b1101#4 ++ low }
  | .trap ign vec => some { cond := .unknownTrapVector, word := 0b1111#4 ++ ign ++ vec }
  | .br _ _ | .addReg _ _ _ | .addImm _ _ _ | .ld _ _ | .st _ _ | .jsr _ | .jsrr _ | .andReg _ _ _ | .andImm _ _ _
  | .ldr _ _ _ | .str _ _ _ | .not _ _ | .ldi _ _ | .sti _ _ | .jmp _ | .lea _ _
  | .getc | .out | .puts | .inp | .putsp | .halt => none

/-- The address an instruction stores to, with the operands it has in a state: the stores ST, STR and STI (R51). -/
def storeAddress (i : Instr) (s : State) : Option Word :=
  match i with
  | .st _ off9 => some (addrPc9 s off9)
  | .str _ base off6 => some (addrBase6 s base off6)
  | .sti _ off9 => some (readPointer s off9).1
  | .br _ _ | .addReg _ _ _ | .addImm _ _ _ | .ld _ _ | .jsr _ | .jsrr _ | .andReg _ _ _ | .andImm _ _ _ | .ldr _ _ _
  | .rsv1000 _ | .not _ _ | .ldi _ _ | .jmp _ | .rsv1101 _ | .lea _ _ | .getc | .out | .puts | .inp | .putsp | .halt
  | .trap _ _ => none

end Sys2Proof.Machine
end

