-- ==== Sys2Proof/Certificates/Slice0/Obligations.lean ====
section
/-! DEFINITION. The statements made of the model, each with the rule or section of spec/ it rests on. -/

open Sys2Proof Sys2Proof.Machine

/-- Decode and encode agree (R83, R96, R97). -/
def Obligations.DecodeOfEncodeIsTheInstruction : Prop :=
  ∀ (c : Config) (i : Instr), c.wf = true → i.wf c = true → decode c (encode c i) = i

/-- No bit of a field is dropped or moved (R82, R83). Which bits are ignored is decision D6. -/
def Obligations.EncodeOfDecodeKeepsEveryNamedBit : Prop :=
  ∀ (c : Config) (w : Word), encode c (decode c w) &&& ~~~ ignoredBits w = w &&& ~~~ ignoredBits w

/-- "An instruction Word with any value in those bits decodes and executes exactly as the same Word with zeros there." Decision D6; the report keeps the Word (log 11). -/
def Obligations.WordsDifferingInIgnoredBitsRunAlike : Prop :=
  ∀ (c : Config) (w w' : Word), w &&& ~~~ ignoredBits w = w' &&& ~~~ ignoredBits w →
    (decode c w = decode c w' ∨ ((fatalOf (decode c w)).isSome ∧ (fatalOf (decode c w')).isSome)) ∧
    ∀ s, withoutReport (exec (decode c w) s) = withoutReport (exec (decode c w') s)

/-- R94, R97. -/
def Obligations.EveryWordDecodesToAWellFormedInstruction : Prop :=
  ∀ (c : Config) (w : Word), (decode c w).wf c = true

/-- Words of `95_test_vectors.md` part 2, with the default vectors (PRESUMED, log 4). -/
def Obligations.WordsWrittenOutFromTheSpecDecode : Prop :=
  decode Machine.defaultConfig 0x1042#16 = .addReg 0#3 1#3 2#3 ∧
  decode Machine.defaultConfig 0x1265#16 = .addImm 1#3 1#3 5#5 ∧
  decode Machine.defaultConfig 0x907F#16 = .not 0#3 1#3 ∧
  decode Machine.defaultConfig 0x6A7F#16 = .ldr 5#3 1#3 0x3F#6 ∧
  decode Machine.defaultConfig 0xB201#16 = .sti 1#3 1#9 ∧
  decode Machine.defaultConfig 0x0BFD#16 = .br 0b101#3 0x1FD#9 ∧
  decode Machine.defaultConfig 0x4802#16 = .jsr 2#11 ∧
  decode Machine.defaultConfig 0x46BF#16 = .jsrr 2#3 ∧
  decode Machine.defaultConfig 0xFF21#16 = .out ∧
  decode Machine.defaultConfig 0xF026#16 = .trap 0#4 0x26#8 ∧
  decode Machine.defaultConfig 0xD123#16 = .rsv1101 0x123#12

/-- R10. -/
def Obligations.SignExtensionKeepsTheSignedValue : Prop :=
  (∀ v : BitVec 5, (sext v).toInt = v.toInt) ∧ (∀ v : BitVec 6, (sext v).toInt = v.toInt) ∧
  (∀ v : BitVec 9, (sext v).toInt = v.toInt) ∧ (∀ v : BitVec 11, (sext v).toInt = v.toInt)

/-- R118. -/
def Obligations.SetccFollowsTheSignOfTheRegister : Prop :=
  ∀ (s : State) (r : Reg),
    (s.reg r = 0x0000#16 → (setcc r s).cond = s.cfg.flagZ) ∧
    ((s.reg r).toInt < 0 → (setcc r s).cond = s.cfg.flagN) ∧
    (0 < (s.reg r).toInt → (setcc r s).cond = s.cfg.flagP) ∧
    (setcc r s).pc = s.pc ∧ KeepsAllBut [] s (setcc r s)

/-- R56. -/
def Obligations.AStoredWordIsReadBack : Prop :=
  ∀ (s : State) (a v : Word),
    (∀ b, (memWrite a v s).peek b = if b = a then v else s.peek b) ∧ KeepsRegsBut [] s (memWrite a v s) ∧
    (memWrite a v s).pc = s.pc ∧ (memWrite a v s).cond = s.cond ∧ KeepsInput s (memWrite a v s) ∧
    KeepsOutput s (memWrite a v s) ∧ KeepsControl s (memWrite a v s) ∧
    (a ≠ s.cfg.kbsr → (memRead (memWrite a v s) a).1 = v) ∧
    (a = s.cfg.kbsr → (memRead (memWrite a v s) a).1 = (memRead s a).1)

/-- The model's representation of MEM (log 1) loses and invents nothing (R35). -/
def Obligations.CanonicalMemoriesThatReadAlikeAreEqual : Prop :=
  ∀ m m' : Memory, m.wf = true → m'.wf = true → (∀ a, a < 65536 → memGet m a = memGet m' a) → m = m'

/-- Pending case of the interception; 0x8000 exactly is D8. -/
def Obligations.AStatusReadWithInputLatchesTheOldestByte : Prop :=
  ∀ (s : State) (b : Byte) (rest : List Byte), s.cfg.kbsr ≠ s.cfg.kbdr → (hostTurn s).kq = b :: rest →
    let r := memRead s s.cfg.kbsr
    r.1 = 0x8000#16 ∧ r.2.peek s.cfg.kbsr = 0x8000#16 ∧ r.2.peek s.cfg.kbdr = zext8 b ∧ r.2.kq = rest ∧
    r.2.arrivals = (hostTurn s).arrivals ∧ KeepsRegsBut [] s r.2 ∧ r.2.pc = s.pc ∧ r.2.cond = s.cond ∧
    KeepsMemoryBut [s.cfg.kbsr, s.cfg.kbdr] s r.2 ∧ KeepsOutput s r.2 ∧ KeepsControl s r.2

/-- R54. -/
def Obligations.AStatusReadWithoutInputClearsTheStatus : Prop :=
  ∀ s : State, s.cfg.kbsr ≠ s.cfg.kbdr → (hostTurn s).kq = [] →
    let r := memRead s s.cfg.kbsr
    r.1 = 0x0000#16 ∧ r.2.peek s.cfg.kbsr = 0x0000#16 ∧ r.2.peek s.cfg.kbdr = s.peek s.cfg.kbdr ∧ r.2.kq = [] ∧
    KeepsRegsBut [] s r.2 ∧ r.2.pc = s.pc ∧ r.2.cond = s.cond ∧
    KeepsMemoryBut [s.cfg.kbsr] s r.2 ∧ KeepsOutput s r.2 ∧ KeepsControl s r.2

/-- R130. -/
def Obligations.AddRegisterForm : Prop :=
  ∀ (s : State) (dr sr1 sr2 : Reg) (ign : BitVec 2),
    decode s.cfg (0b0001#4 ++ dr ++ sr1 ++ 0b0#1 ++ ign ++ sr2) = .addReg dr sr1 sr2 ∧
    ∃ t, exec (.addReg dr sr1 sr2) s = .next t ∧ t.reg dr = s.reg sr1 + s.reg sr2 ∧ t.cond = flagOf s.cfg (t.reg dr) ∧
      t.pc = s.pc ∧ KeepsAllBut [dr] s t

/-- R131. -/
def Obligations.AddImmediateForm : Prop :=
  ∀ (s : State) (dr sr1 : Reg) (imm5 : BitVec 5),
    decode s.cfg (0b0001#4 ++ dr ++ sr1 ++ 0b1#1 ++ imm5) = .addImm dr sr1 imm5 ∧
    ∃ t, exec (.addImm dr sr1 imm5) s = .next t ∧ t.reg dr = s.reg sr1 + sext imm5 ∧ t.cond = flagOf s.cfg (t.reg dr) ∧
      t.pc = s.pc ∧ KeepsAllBut [dr] s t

/-- R132. -/
def Obligations.AndRegisterForm : Prop :=
  ∀ (s : State) (dr sr1 sr2 : Reg) (ign : BitVec 2),
    decode s.cfg (0b0101#4 ++ dr ++ sr1 ++ 0b0#1 ++ ign ++ sr2) = .andReg dr sr1 sr2 ∧
    ∃ t, exec (.andReg dr sr1 sr2) s = .next t ∧ t.reg dr = s.reg sr1 &&& s.reg sr2 ∧ t.cond = flagOf s.cfg (t.reg dr) ∧
      t.pc = s.pc ∧ KeepsAllBut [dr] s t

/-- R133. -/
def Obligations.AndImmediateForm : Prop :=
  ∀ (s : State) (dr sr1 : Reg) (imm5 : BitVec 5),
    decode s.cfg (0b0101#4 ++ dr ++ sr1 ++ 0b1#1 ++ imm5) = .andImm dr sr1 imm5 ∧
    ∃ t, exec (.andImm dr sr1 imm5) s = .next t ∧ t.reg dr = s.reg sr1 &&& sext imm5 ∧ t.cond = flagOf s.cfg (t.reg dr) ∧
      t.pc = s.pc ∧ KeepsAllBut [dr] s t

/-- R134. -/
def Obligations.NotComplements : Prop :=
  ∀ (s : State) (dr sr : Reg) (ign : BitVec 6),
    decode s.cfg (0b1001#4 ++ dr ++ sr ++ ign) = .not dr sr ∧
    ∃ t, exec (.not dr sr) s = .next t ∧ t.reg dr = ~~~ s.reg sr ∧ t.cond = flagOf s.cfg (t.reg dr) ∧
      t.pc = s.pc ∧ KeepsAllBut [dr] s t

/-- R146. -/
def Obligations.LoadEffectiveAddress : Prop :=
  ∀ (s : State) (dr : Reg) (off9 : BitVec 9),
    decode s.cfg (0b1110#4 ++ dr ++ off9) = .lea dr off9 ∧
    ∃ t, exec (.lea dr off9) s = .next t ∧ t.reg dr = s.pc + sext off9 ∧ t.cond = flagOf s.cfg (t.reg dr) ∧
      t.pc = s.pc ∧ KeepsAllBut [dr] s t

/-- R140. -/
def Obligations.LoadPcRelative : Prop :=
  ∀ (s : State) (dr : Reg) (off9 : BitVec 9),
    decode s.cfg (0b0010#4 ++ dr ++ off9) = .ld dr off9 ∧
    let a := s.pc + sext off9
    ∃ t, exec (.ld dr off9) s = .next t ∧ t.reg dr = (memRead s a).1 ∧ (a ≠ s.cfg.kbsr → t.reg dr = s.peek a) ∧
      t.cond = flagOf s.cfg (t.reg dr) ∧ t.pc = s.pc ∧ KeepsRegsBut [dr] s t ∧ AfterRead a s t ∧
      KeepsOutput s t ∧ KeepsControl s t

/-- R142. -/
def Obligations.LoadBaseOffset : Prop :=
  ∀ (s : State) (dr base : Reg) (off6 : BitVec 6),
    decode s.cfg (0b0110#4 ++ dr ++ base ++ off6) = .ldr dr base off6 ∧
    let a := s.reg base + sext off6
    ∃ t, exec (.ldr dr base off6) s = .next t ∧ t.reg dr = (memRead s a).1 ∧ (a ≠ s.cfg.kbsr → t.reg dr = s.peek a) ∧
      t.cond = flagOf s.cfg (t.reg dr) ∧ t.pc = s.pc ∧ KeepsRegsBut [dr] s t ∧ AfterRead a s t ∧
      KeepsOutput s t ∧ KeepsControl s t

/-- R144. -/
def Obligations.LoadIndirect : Prop :=
  ∀ (s : State) (dr : Reg) (off9 : BitVec 9),
    decode s.cfg (0b1010#4 ++ dr ++ off9) = .ldi dr off9 ∧
    let a := s.pc + sext off9
    let p := memRead s a
    ∃ t, exec (.ldi dr off9) s = .next t ∧ t.reg dr = (memRead p.2 p.1).1 ∧ t.cond = flagOf s.cfg (t.reg dr) ∧
      t.pc = s.pc ∧ KeepsRegsBut [dr] s t ∧ AfterRead p.1 p.2 t ∧ KeepsOutput s t ∧ KeepsControl s t ∧
      (a ≠ s.cfg.kbsr → p.1 = s.peek a ∧ p.2 = s ∧
        (s.peek a ≠ s.cfg.kbsr → t.reg dr = s.peek (s.peek a) ∧ KeepsMemory s t ∧ KeepsInput s t))

/-- R141. -/
def Obligations.StorePcRelative : Prop :=
  ∀ (s : State) (sr : Reg) (off9 : BitVec 9),
    decode s.cfg (0b0011#4 ++ sr ++ off9) = .st sr off9 ∧
    let a := s.pc + sext off9
    ∃ t, exec (.st sr off9) s = .next t ∧ (∀ b, t.peek b = if b = a then s.reg sr else s.peek b) ∧
      t.cond = s.cond ∧ t.pc = s.pc ∧ KeepsRegsBut [] s t ∧ KeepsInput s t ∧ KeepsOutput s t ∧ KeepsControl s t

/-- R143. -/
def Obligations.StoreBaseOffset : Prop :=
  ∀ (s : State) (sr base : Reg) (off6 : BitVec 6),
    decode s.cfg (0b0111#4 ++ sr ++ base ++ off6) = .str sr base off6 ∧
    let a := s.reg base + sext off6
    ∃ t, exec (.str sr base off6) s = .next t ∧ (∀ b, t.peek b = if b = a then s.reg sr else s.peek b) ∧
      t.cond = s.cond ∧ t.pc = s.pc ∧ KeepsRegsBut [] s t ∧ KeepsInput s t ∧ KeepsOutput s t ∧ KeepsControl s t

/-- R145. -/
def Obligations.StoreIndirect : Prop :=
  ∀ (s : State) (sr : Reg) (off9 : BitVec 9),
    decode s.cfg (0b1011#4 ++ sr ++ off9) = .sti sr off9 ∧
    let a := s.pc + sext off9
    let p := memRead s a
    ∃ t, exec (.sti sr off9) s = .next t ∧ (∀ b, t.peek b = if b = p.1 then s.reg sr else p.2.peek b) ∧
      t.kq = p.2.kq ∧ t.arrivals = p.2.arrivals ∧ t.cond = s.cond ∧ t.pc = s.pc ∧ KeepsRegsBut [] s t ∧
      KeepsOutput s t ∧ KeepsControl s t ∧
      (a ≠ s.cfg.kbsr → p.1 = s.peek a ∧ KeepsMemoryBut [s.peek a] s t ∧ KeepsInput s t)

/-- R150. -/
def Obligations.AWordStoredAtAnLeaAddressReloadsUnchanged : Prop :=
  ∀ (s : State) (b r d : Reg) (off9 : BitVec 9),
    ∃ s1 s2 s3, exec (.lea b off9) s = .next s1 ∧ exec (.str r b 0#6) s1 = .next s2 ∧ exec (.ldr d b 0#6) s2 = .next s3 ∧
      (s.pc + sext off9 ≠ s.cfg.kbsr → s3.reg d = s1.reg r) ∧
      (s.pc + sext off9 = s.cfg.kbsr → s3.reg d = (memRead s2 s.cfg.kbsr).1)

/-- R160. -/
def Obligations.BranchAddsTheOffsetIfAFlagMatches : Prop :=
  ∀ (s : State) (nzp : BitVec 3) (off9 : BitVec 9),
    decode s.cfg (0b0000#4 ++ nzp ++ off9) = .br nzp off9 ∧
    ∃ t, exec (.br nzp off9) s = .next t ∧ t.pc = (if nzp &&& s.cond ≠ 0b000#3 then s.pc + sext off9 else s.pc) ∧
      t.cond = s.cond ∧ KeepsAllBut [] s t

/-- The table of R161. The flag values are decision D1's default (log 4). -/
def Obligations.BranchMasksNameTheFlagThatIsSet : Prop :=
  ∀ (s : State) (nzp : BitVec 3) (off9 : BitVec 9),
    s.cfg.flagP = 0b001#3 → s.cfg.flagZ = 0b010#3 → s.cfg.flagN = 0b100#3 → s.cond ∈ s.cfg.flags →
    ∃ t, exec (.br nzp off9) s = .next t ∧
      t.pc = (if (s.cond = s.cfg.flagN ∧ nzp.getLsbD 2 = true) ∨ (s.cond = s.cfg.flagZ ∧ nzp.getLsbD 1 = true) ∨
                  (s.cond = s.cfg.flagP ∧ nzp.getLsbD 0 = true) then s.pc + sext off9 else s.pc)

/-- R162. -/
def Obligations.JumpGoesToTheBaseRegister : Prop :=
  ∀ (s : State) (base : Reg) (ign : BitVec 3) (ign' : BitVec 6),
    decode s.cfg (0b1100#4 ++ ign ++ base ++ ign') = .jmp base ∧
    ∃ t, exec (.jmp base) s = .next t ∧ t.pc = s.reg base ∧ t.cond = s.cond ∧ KeepsAllBut [] s t

/-- R164. -/
def Obligations.JsrLinksAndBranches : Prop :=
  ∀ (s : State) (off11 : BitVec 11),
    decode s.cfg (0b0100#4 ++ 0b1#1 ++ off11) = .jsr off11 ∧
    ∃ t, exec (.jsr off11) s = .next t ∧ t.reg 7#3 = s.pc ∧ t.pc = s.pc + sext off11 ∧ t.cond = s.cond ∧
      KeepsAllBut [7#3] s t

/-- JSRR; the order is decision D7. -/
def Obligations.JsrrLinksBeforeItReadsTheBase : Prop :=
  ∀ (s : State) (base : Reg) (ign : BitVec 2) (ign' : BitVec 6),
    decode s.cfg (0b0100#4 ++ 0b0#1 ++ ign ++ base ++ ign') = .jsrr base ∧
    ∃ t, exec (.jsrr base) s = .next t ∧ t.reg 7#3 = s.pc ∧
      t.pc = (if base = 7#3 then s.pc else s.reg base) ∧ t.cond = s.cond ∧ KeepsAllBut [7#3] s t

/-- R163. -/
def Obligations.TheLinkIsTheAddressAJumpThroughR7ReturnsTo : Prop :=
  ∀ (i : Instr) (s t : State), i.wf s.cfg = true → isLinking i = true → exec i s = .next t →
    t.reg 7#3 = s.pc ∧ (∃ u, exec (.jmp 7#3) t = .next u ∧ u.pc = s.pc) ∧
    (i ≠ .getc → i ≠ .inp → t.cond = s.cond)

/-- GETC with a byte pending (R173); never NEGATIVE, since the code is zero-extended. -/
def Obligations.GetcReadsOnePendingByte : Prop :=
  ∀ (s : State) (ign : BitVec 4) (b : Byte) (rest : List Byte), (hostTurn s).kq = b :: rest →
    decode s.cfg (0b1111#4 ++ ign ++ s.cfg.tvGetc) = .getc ∧
    ∃ t, exec .getc s = .next t ∧ t.reg 0#3 = zext8 b ∧ t.reg 7#3 = s.pc ∧ t.cond = flagOf s.cfg (zext8 b) ∧
      (s.cfg.wf = true → t.cond ≠ s.cfg.flagN) ∧
      t.kq = rest ∧ t.arrivals = (hostTurn s).arrivals ∧ t.pc = s.pc ∧ KeepsRegsBut [0#3, 7#3] s t ∧
      KeepsMemory s t ∧ KeepsOutput s t ∧ t.run = s.run ∧ t.report = s.report ∧ t.cfg = s.cfg ∧ t.busy = .idle

/-- The wait of ConsoleGet; its form is log 7. The prompt and its flush before the wait of IN are decisions D12 and D17 (log 19). -/
def Obligations.GetcAndInWaitWhileNothingIsPending : Prop :=
  ∀ s : State, (hostTurn s).kq = [] →
    (∃ t, exec .getc s = .next t ∧ t.busy = .getc ∧ t.reg 7#3 = s.pc ∧ KeepsRegsBut [7#3] s t ∧ t.pc = s.pc ∧
      t.cond = s.cond ∧ KeepsMemory s t ∧ t.kq = [] ∧ t.run = s.run ∧ KeepsOutput s t) ∧
    (∃ t, exec .inp s = .next t ∧ t.busy = .inp ∧ t.reg 7#3 = s.pc ∧ KeepsRegsBut [7#3] s t ∧ t.pc = s.pc ∧
      t.cond = s.cond ∧ KeepsMemory s t ∧ t.kq = [] ∧ t.run = s.run ∧
      t.outq = s.outq ++ s.cfg.inPrompt ∧ t.flushed = t.outq.length)

/-- "What lifts the hold is a delivery by the host, and nothing else" (R39); its form is log 7. For IN the zero extension, the echo and its flush are decisions D9 and D17 (log 19). -/
def Obligations.TheWaitEndsOnlyWithADelivery : Prop :=
  ∀ s : State, s.run = .running → (s.busy = .getc ∨ s.busy = .inp) →
    ((hostTurn s).kq = [] → step s = .next (hostTurn s)) ∧
    (∀ b rest, (hostTurn s).kq = b :: rest → ∃ t, step s = .next t ∧ t.busy = .idle ∧ t.reg 0#3 = zext8 b ∧
      t.cond = flagOf s.cfg (zext8 b) ∧ t.kq = rest ∧ KeepsRegsBut [0#3] s t ∧ t.pc = s.pc ∧ KeepsMemory s t ∧
      t.run = .running ∧ (s.busy = .getc → KeepsOutput s t) ∧
      (s.busy = .inp → t.outq = s.outq ++ [b] ∧ t.flushed = t.outq.length))

/-- R174. -/
def Obligations.OutWritesTheLowByteOfR0 : Prop :=
  ∀ (s : State) (ign : BitVec 4),
    (s.cfg.wf = true → decode s.cfg (0b1111#4 ++ ign ++ s.cfg.tvOut) = .out) ∧
    ∃ t, exec .out s = .next t ∧ t.outq = s.outq ++ [(s.reg 0#3).extractLsb' 0 8] ∧ t.flushed = t.outq.length ∧
      t.reg 7#3 = s.pc ∧ t.pc = s.pc ∧ t.cond = s.cond ∧ KeepsRegsBut [7#3] s t ∧ KeepsMemory s t ∧ KeepsInput s t ∧
      KeepsControl s t

/-- R175, R177. That a scan longer than once round the memory goes on over later steps is log 8. -/
def Obligations.PutsAndPutspRunTheirLoops : Prop :=
  ∀ (s : State) (ign : BitVec 4),
    (s.cfg.wf = true → decode s.cfg (0b1111#4 ++ ign ++ s.cfg.tvPuts) = .puts) ∧
    (s.cfg.wf = true → decode s.cfg (0b1111#4 ++ ign ++ s.cfg.tvPutsp) = .putsp) ∧
    (∀ (n : Nat) (t : State), StringLoop (fun w => [w.extractLsb' 0 8]) n (s.reg 0#3) (link s) t →
      ∃ u, exec .puts s = .next u ∧ (n ≤ 65536 → u = t.setBusy .idle) ∧
        (s.run = .running → ∃ k, Host.Core.run Sys2Proof.core k u = .next (t.setBusy .idle))) ∧
    (∀ (n : Nat) (t : State), StringLoop
        (fun w => if w.extractLsb' 8 8 ≠ 0x00#8 then [w.extractLsb' 0 8, w.extractLsb' 8 8] else [w.extractLsb' 0 8])
        n (s.reg 0#3) (link s) t →
      ∃ u, exec .putsp s = .next u ∧ (n ≤ 65536 → u = t.setBusy .idle) ∧
        (s.run = .running → ∃ k, Host.Core.run Sys2Proof.core k u = .next (t.setBusy .idle)))

/-- R178 (c), U18; its form over steps is log 8. -/
def Obligations.AStringWithoutAZeroWordNeverEnds : Prop :=
  ∀ s : State, s.run = .running →
    ((∀ (n : Nat) (t : State), ¬ StringLoop (fun w => [w.extractLsb' 0 8])
        n (s.reg 0#3) (link s) t) →
      ∃ u, exec .puts s = .next u ∧ ∀ k, ∃ v, Host.Core.run Sys2Proof.core k u = .next v ∧ v.busy ≠ .idle ∧
        v.run = .running ∧ s.outq <+: v.outq ∧ s.outq.length + (k + 1) * 65536 ≤ v.outq.length ∧ v.reg 7#3 = s.pc ∧
        KeepsRegsBut [7#3] s v ∧ v.pc = s.pc ∧ v.cond = s.cond ∧ KeepsMemoryBut [s.cfg.kbsr, s.cfg.kbdr] s v) ∧
    ((∀ (n : Nat) (t : State), ¬ StringLoop (fun w => if w.extractLsb' 8 8 ≠ 0x00#8 then [w.extractLsb' 0 8, w.extractLsb' 8 8] else [w.extractLsb' 0 8])
        n (s.reg 0#3) (link s) t) →
      ∃ u, exec .putsp s = .next u ∧ ∀ k, ∃ v, Host.Core.run Sys2Proof.core k u = .next v ∧ v.busy ≠ .idle ∧
        v.run = .running ∧ s.outq <+: v.outq ∧ s.outq.length + (k + 1) * 65536 ≤ v.outq.length ∧ v.reg 7#3 = s.pc ∧
        KeepsRegsBut [7#3] s v ∧ v.pc = s.pc ∧ v.cond = s.cond ∧ KeepsMemoryBut [s.cfg.kbsr, s.cfg.kbdr] s v)

/-- "PutString over memory containing the Words for 'H', 'i', 0 outputs exactly "Hi" and stops before the terminator." -/
def Obligations.StringRoutinesWriteTheStringAndStop : Prop :=
  ∀ (s : State) (ws : List Word), ws.length < 65536 → (∀ w ∈ ws, w ≠ 0x0000#16) →
    StringAt (ws ++ [0x0000#16]) (s.reg 0#3) s →
    (∃ t, exec .puts s = .next t ∧ t.outq = s.outq ++ ws.map (fun w => w.extractLsb' 0 8) ∧
      t.flushed = t.outq.length ∧ t.reg 7#3 = s.pc ∧ KeepsRegsBut [7#3] s t ∧ t.pc = s.pc ∧ t.cond = s.cond ∧
      KeepsMemory s t ∧ KeepsInput s t ∧ t.run = s.run ∧ t.report = s.report ∧ t.cfg = s.cfg ∧ t.busy = .idle) ∧
    (∃ t, exec .putsp s = .next t ∧
      t.outq = s.outq ++ ws.flatMap (fun w =>
        w.extractLsb' 0 8 :: (if w.extractLsb' 8 8 = 0x00#8 then [] else [w.extractLsb' 8 8])) ∧
      t.flushed = t.outq.length ∧ t.reg 7#3 = s.pc ∧ KeepsRegsBut [7#3] s t ∧ t.pc = s.pc ∧ t.cond = s.cond ∧
      KeepsMemory s t ∧ KeepsInput s t ∧ t.run = s.run ∧ t.report = s.report ∧ t.cfg = s.cfg ∧ t.busy = .idle)

/-- IN; decisions D9, D12 and D17 (log 19). -/
def Obligations.InPromptsReadsAndEchoes : Prop :=
  ∀ (s : State) (ign : BitVec 4) (b : Byte) (rest : List Byte), (hostTurn s).kq = b :: rest →
    (s.cfg.wf = true → decode s.cfg (0b1111#4 ++ ign ++ s.cfg.tvIn) = .inp) ∧
    ∃ t, exec .inp s = .next t ∧ t.outq = s.outq ++ s.cfg.inPrompt ++ [b] ∧ t.flushed = t.outq.length ∧
      t.reg 0#3 = zext8 b ∧ t.reg 7#3 = s.pc ∧ t.cond = flagOf s.cfg (zext8 b) ∧
      t.kq = rest ∧ t.arrivals = (hostTurn s).arrivals ∧ t.pc = s.pc ∧ KeepsRegsBut [0#3, 7#3] s t ∧
      KeepsMemory s t ∧ t.run = s.run ∧ t.report = s.report ∧ t.cfg = s.cfg ∧ t.busy = .idle

/-- R180. -/
def Obligations.HaltWritesItsNoticeAndStops : Prop :=
  ∀ (s : State) (ign : BitVec 4),
    (s.cfg.wf = true → decode s.cfg (0b1111#4 ++ ign ++ s.cfg.tvHalt) = .halt) ∧
    ∃ t, exec .halt s = .next t ∧ t.outq = s.outq ++ s.cfg.haltNotice ∧ t.flushed = t.outq.length ∧ t.run = .halted ∧
      t.reg 7#3 = s.pc ∧ t.pc = s.pc ∧ t.cond = s.cond ∧ KeepsRegsBut [7#3] s t ∧ KeepsMemory s t ∧ KeepsInput s t ∧
      t.report = s.report ∧ t.busy = s.busy ∧ t.cfg = s.cfg ∧ ∀ u, step t ≠ .next u

/-- Undefined vectors; D7 (link first), D13 (the report). -/
def Obligations.AnUndefinedVectorIsFatalAfterTheLink : Prop :=
  ∀ (s : State) (ign : BitVec 4) (vec : BitVec 8), vec ∉ s.cfg.vectors →
    decode s.cfg (0b1111#4 ++ ign ++ vec) = .trap ign vec ∧
    ∃ t, exec (.trap ign vec) s = .next t ∧ t.run = .fatal ∧
      t.report = some { cond := .unknownTrapVector, word := 0b1111#4 ++ ign ++ vec } ∧
      t.reg 7#3 = s.pc ∧ t.pc = s.pc ∧ t.cond = s.cond ∧ KeepsRegsBut [7#3] s t ∧ KeepsMemory s t ∧ KeepsInput s t ∧
      KeepsOutput s t ∧ t.busy = s.busy ∧ t.cfg = s.cfg

/-- R190, R191; that the report is this pair is decision D13 (R203; log 11, log 12). -/
def Obligations.ReservedOpcodesRaiseDecodeError : Prop :=
  ∀ (s : State) (low : BitVec 12),
    (decode s.cfg (0b1000#4 ++ low) = .rsv1000 low ∧
      ∃ t, exec (.rsv1000 low) s = .next t ∧ t.run = .fatal ∧
        t.report = some { cond := .decodeError, word := 0b1000#4 ++ low } ∧ t.pc = s.pc ∧ t.cond = s.cond ∧
        KeepsRegsBut [] s t ∧ KeepsMemory s t ∧ KeepsInput s t ∧ KeepsOutput s t ∧ t.busy = s.busy ∧ t.cfg = s.cfg) ∧
    (decode s.cfg (0b1101#4 ++ low) = .rsv1101 low ∧
      ∃ t, exec (.rsv1101 low) s = .next t ∧ t.run = .fatal ∧
        t.report = some { cond := .decodeError, word := 0b1101#4 ++ low } ∧ t.pc = s.pc ∧ t.cond = s.cond ∧
        KeepsRegsBut [] s t ∧ KeepsMemory s t ∧ KeepsInput s t ∧ KeepsOutput s t ∧ t.busy = s.busy ∧ t.cfg = s.cfg)

/-- R110 to R112; D14. -/
def Obligations.FetchReadsAtPcAndAdvances : Prop :=
  ∀ s : State, (fetch s).1 = (memRead s s.pc).1 ∧ (fetch s).2.pc.toNat = (s.pc.toNat + 1) % 65536 ∧
    (fetch s).2.cond = s.cond ∧ KeepsRegsBut [] s (fetch s).2 ∧ AfterRead s.pc s (fetch s).2 ∧
    KeepsOutput s (fetch s).2 ∧ KeepsControl s (fetch s).2 ∧
    (s.pc ≠ s.cfg.kbsr → fetch s = (s.peek s.pc, s.setPc (s.pc + 1#16)))

/-- R110, R114; the fault at FATAL is U1 to U3 (log 9). -/
def Obligations.AStepRunsTheDecodedInstruction : Prop :=
  ∀ (s : State) (i : Instr), s.run = .running → s.busy = .idle → decode s.cfg (fetch s).1 = i →
    ∀ t, exec i (fetch s).2 = .next t →
      (t.run ≠ .fatal → step s = .next t) ∧ (t.run = .fatal → step s = .fault (fatalFault t))

/-- "In either state the core performs no step" (R212, D19); log 10. -/
def Obligations.NoStepLeavesHaltedOrFatal : Prop :=
  ∀ s : State, (s.run = .halted → step s = .fault .afterHalt) ∧ (s.run = .fatal → step s = .fault .afterFatal)

/-- State at FATAL (R200 to R204); the fault is U1 to U3 (log 9). -/
def Obligations.AFatalInstructionEndsTheRunWithItsReport : Prop :=
  ∀ (s : State) (r : FatalReport), s.run = .running → s.busy = .idle →
    fatalOf (decode s.cfg (fetch s).1) = some r →
    r.word = (fetch s).1 ∧
    ∃ t, step s = .fault (match r.cond with
        | .decodeError => .decodeError (fetch s).1 t
        | .unknownTrapVector => .unknownTrapVector (fetch s).1 t) ∧
      t.run = .fatal ∧ t.report = some r ∧ t.pc = s.pc + 1#16 ∧ t.cond = s.cond ∧ KeepsRegsBut [7#3] s t ∧
      t.reg 7#3 = (if r.cond = .unknownTrapVector then t.pc else s.reg 7#3) ∧ AfterRead s.pc s t ∧ KeepsOutput s t

/-- "The only violations the core detects are the two" (R205). -/
def Obligations.OnlyTheTwoFatalConditionsStopARunningCore : Prop :=
  ∀ s : State, s.run = .running →
    (∀ r, step s ≠ .refused r) ∧
    (∀ f, step s = .fault f → s.busy = .idle ∧ ∃ t,
      ((fieldOpcode (fetch s).1 = 0b1000#4 ∨ fieldOpcode (fetch s).1 = 0b1101#4) ∧ f = .decodeError (fetch s).1 t) ∨
      (fieldOpcode (fetch s).1 = 0b1111#4 ∧ fieldVec (fetch s).1 ∉ s.cfg.vectors ∧
        f = .unknownTrapVector (fetch s).1 t))

/-- R34. -/
def Obligations.RunLeavesRunningOnlyByHaltOrAFatalCondition : Prop :=
  ∀ (i : Instr) (s t : State), i.wf s.cfg = true → s.run = .running → exec i s = .next t →
    (t.run = .halted ↔ i = .halt) ∧ (t.run = .fatal ↔ (fatalOf i).isSome = true)

/-- R42, R231 at the defaults (log 4). -/
def Obligations.ResetMeetsTheInvariant : Prop :=
  State.reset.Inv

/-- R42, R231, R236; nothing is assumed of R0..R7 (R25). -/
def Obligations.EveryCreatedMachineMeetsTheInvariant : Prop :=
  ∀ (c : Config) (g : Vector Word 8) (o : Word) (im : List Word) (q : List Byte) (ar : HostPlan) (s : State),
    createMachine c g o im q ar = .ok s → s.Inv

/-- R30, R119 and the model's own forms (log 1, log 7, log 9). -/
def Obligations.EveryStepKeepsTheInvariant : Prop :=
  ∀ s t : State, s.Inv → step s = .next t → t.Inv ∧ t.cfg = s.cfg

/-- R117, R119. -/
def Obligations.FlagsFollowTheDestinationAndNothingElse : Prop :=
  ∀ (i : Instr) (s t : State), i.wf s.cfg = true → exec i s = .next t →
    (flagDest i = none → t.cond = s.cond) ∧
    (∀ dr, flagDest i = some dr → t.cond = flagOf s.cfg (t.reg dr) ∨
      ((i = .getc ∨ i = .inp) ∧ t.busy ≠ .idle ∧ t.cond = s.cond)) ∧
    (s.Inv → t.cond ∈ s.cfg.flags)

/-- R51, R55, R57. -/
def Obligations.OnlyStoresChangeMemory : Prop :=
  ∀ (s t : State) (a : Word), step s = .next t → a ≠ s.cfg.kbsr → a ≠ s.cfg.kbdr → t.peek a ≠ s.peek a →
    s.busy = .idle ∧ storeAddress (decode s.cfg (fetch s).1) (fetch s).2 = some a

/-- R55, R71; the schedule of deliveries is log 5. -/
def Obligations.InputBytesAreConsumedOnceAndInOrder : Prop :=
  ∀ s t : State, step s = .next t →
    ∃ looks, t.arrivals = planAfter looks s.arrivals ∧ t.kq <:+ s.kq ++ upcoming looks s.arrivals

/-- R40, R41, R71. -/
def Obligations.OutputBytesAreNeverTakenBack : Prop :=
  ∀ s t : State, step s = .next t → s.outq <+: t.outq ∧
    (s.flushed ≤ s.outq.length → s.flushed ≤ t.flushed ∧ t.flushed ≤ t.outq.length)

/-- The table of R181. -/
def Obligations.RoutinesTouchOnlyTheirOwnState : Prop :=
  ∀ (i : Instr) (s t : State), i.wf s.cfg = true → (isRoutine i = true ∨ ∃ ign vec, i = .trap ign vec) → exec i s = .next t →
    KeepsRegsBut [0#3, 7#3] s t ∧ t.reg 7#3 = s.pc ∧ t.pc = s.pc ∧ t.cfg = s.cfg ∧
    KeepsMemoryBut [s.cfg.kbsr, s.cfg.kbdr] s t ∧ (i ≠ .puts → i ≠ .putsp → KeepsMemory s t) ∧
    (i ≠ .getc → i ≠ .inp → t.reg 0#3 = s.reg 0#3 ∧ t.cond = s.cond)

/-- "R1 to R6 are never read or written by any routine" (R181); the later steps of a routine are log 7 and log 8. -/
def Obligations.RoutinesDoNotReadR1ToR6 : Prop :=
  ∀ (s t : State) (r : Reg) (v : Word), r ≠ 0#3 → r ≠ 7#3 →
    (∀ i : Instr, isRoutine i = true → exec i s = .next t → exec i (s.setReg r v) = .next (t.setReg r v)) ∧
    (s.busy ≠ .idle → step s = .next t → step (s.setReg r v) = .next (t.setReg r v))

/-- R69, R237. -/
def Obligations.AStoreToTheNextInstructionIsFetched : Prop :=
  ∀ (s : State) (sr : Reg), s.pc ≠ s.cfg.kbsr →
    ∃ t, exec (.st sr 0#9) s = .next t ∧ (fetch t).1 = s.reg sr

/-- R93, R120, R242. -/
def Obligations.ZeroedMemoryRunsNoOperationsForEver : Prop :=
  ∀ (s : State) (k : Nat), s.run = .running → s.busy = .idle → (∀ a, s.peek a = 0x0000#16) → s.kq = [] →
    (∀ n, upcoming n s.arrivals = []) →
    ∃ t, Host.Core.run Sys2Proof.core k s = .next t ∧ t.pc = s.pc + BitVec.ofNat 16 k ∧ t.cond = s.cond ∧
      t.run = .running ∧ KeepsRegsBut [] s t ∧ KeepsMemory s t ∧ KeepsOutput s t

/-- The table of R42; R231, R236. -/
def Obligations.ResetGivesTheStateOfTheTable : Prop :=
  ∀ (c : Config) (g : Vector Word 8) (o : Word) (im : List Word) (q : List Byte) (ar : HostPlan),
    (createMachine c g o im q ar = .error .badConfiguration ↔ (c.wf = false ∨ 65536 < o.toNat + im.length)) ∧
    (c.wf = true → o.toNat + im.length ≤ 65536 → ∃ s, createMachine c g o im q ar = .ok s ∧ s.x = g ∧ s.pc = o ∧ s.cond = c.flagZ ∧ s.run = .running ∧
      (∀ k (h : k < im.length), s.peek (o + BitVec.ofNat 16 k) = im[k]) ∧
      (∀ a : Word, (a.toNat < o.toNat ∨ o.toNat + im.length ≤ a.toNat) → s.peek a = 0x0000#16) ∧
      s.kq = q ∧ s.arrivals = ar ∧ s.outq = [] ∧ s.flushed = 0 ∧ s.report = none ∧ s.busy = .idle ∧ s.cfg = c)

/-- R235. -/
def Obligations.AnImageFileIsBigEndianWithItsOriginFirst : Prop :=
  ∀ (o : Word) (im : List Word),
    imageOfFile ((o :: im).flatMap (fun w => [w.extractLsb' 8 8, w.extractLsb' 0 8])) = some (o, im)
end

