-- ==== Sys2Proof/Laws/State.lean ====
section
/-! SUPPORT. Every field of the state after every primitive update, by rfl, so that no proof unfolds a record update;
then the readings (reg, peek) after each of them. -/

namespace Sys2Proof.Machine

/-! setReg -/

@[simp] theorem setReg_x (s : State) (r : Reg) (v : Word) : (s.setReg r v).x = s.x.set r.toNat v r.isLt := rfl
@[simp] theorem setReg_pc (s : State) (r : Reg) (v : Word) : (s.setReg r v).pc = s.pc := rfl
@[simp] theorem setReg_cond (s : State) (r : Reg) (v : Word) : (s.setReg r v).cond = s.cond := rfl
@[simp] theorem setReg_run (s : State) (r : Reg) (v : Word) : (s.setReg r v).run = s.run := rfl
@[simp] theorem setReg_mem (s : State) (r : Reg) (v : Word) : (s.setReg r v).mem = s.mem := rfl
@[simp] theorem setReg_kq (s : State) (r : Reg) (v : Word) : (s.setReg r v).kq = s.kq := rfl
@[simp] theorem setReg_arrivals (s : State) (r : Reg) (v : Word) : (s.setReg r v).arrivals = s.arrivals := rfl
@[simp] theorem setReg_outq (s : State) (r : Reg) (v : Word) : (s.setReg r v).outq = s.outq := rfl
@[simp] theorem setReg_flushed (s : State) (r : Reg) (v : Word) : (s.setReg r v).flushed = s.flushed := rfl
@[simp] theorem setReg_busy (s : State) (r : Reg) (v : Word) : (s.setReg r v).busy = s.busy := rfl
@[simp] theorem setReg_report (s : State) (r : Reg) (v : Word) : (s.setReg r v).report = s.report := rfl
@[simp] theorem setReg_cfg (s : State) (r : Reg) (v : Word) : (s.setReg r v).cfg = s.cfg := rfl
@[simp] theorem setReg_peek (s : State) (r : Reg) (v : Word) (d : Word) : (s.setReg r v).peek d = s.peek d := rfl

/-! setPc -/

@[simp] theorem setPc_x (s : State) (a : Word) : (s.setPc a).x = s.x := rfl
@[simp] theorem setPc_pc (s : State) (a : Word) : (s.setPc a).pc = a := rfl
@[simp] theorem setPc_cond (s : State) (a : Word) : (s.setPc a).cond = s.cond := rfl
@[simp] theorem setPc_run (s : State) (a : Word) : (s.setPc a).run = s.run := rfl
@[simp] theorem setPc_mem (s : State) (a : Word) : (s.setPc a).mem = s.mem := rfl
@[simp] theorem setPc_kq (s : State) (a : Word) : (s.setPc a).kq = s.kq := rfl
@[simp] theorem setPc_arrivals (s : State) (a : Word) : (s.setPc a).arrivals = s.arrivals := rfl
@[simp] theorem setPc_outq (s : State) (a : Word) : (s.setPc a).outq = s.outq := rfl
@[simp] theorem setPc_flushed (s : State) (a : Word) : (s.setPc a).flushed = s.flushed := rfl
@[simp] theorem setPc_busy (s : State) (a : Word) : (s.setPc a).busy = s.busy := rfl
@[simp] theorem setPc_report (s : State) (a : Word) : (s.setPc a).report = s.report := rfl
@[simp] theorem setPc_cfg (s : State) (a : Word) : (s.setPc a).cfg = s.cfg := rfl
@[simp] theorem setPc_reg (s : State) (a : Word) (y : Reg) : (s.setPc a).reg y = s.reg y := rfl
@[simp] theorem setPc_peek (s : State) (a : Word) (d : Word) : (s.setPc a).peek d = s.peek d := rfl

/-! setCond -/

@[simp] theorem setCond_x (s : State) (f : BitVec 3) : (s.setCond f).x = s.x := rfl
@[simp] theorem setCond_pc (s : State) (f : BitVec 3) : (s.setCond f).pc = s.pc := rfl
@[simp] theorem setCond_cond (s : State) (f : BitVec 3) : (s.setCond f).cond = f := rfl
@[simp] theorem setCond_run (s : State) (f : BitVec 3) : (s.setCond f).run = s.run := rfl
@[simp] theorem setCond_mem (s : State) (f : BitVec 3) : (s.setCond f).mem = s.mem := rfl
@[simp] theorem setCond_kq (s : State) (f : BitVec 3) : (s.setCond f).kq = s.kq := rfl
@[simp] theorem setCond_arrivals (s : State) (f : BitVec 3) : (s.setCond f).arrivals = s.arrivals := rfl
@[simp] theorem setCond_outq (s : State) (f : BitVec 3) : (s.setCond f).outq = s.outq := rfl
@[simp] theorem setCond_flushed (s : State) (f : BitVec 3) : (s.setCond f).flushed = s.flushed := rfl
@[simp] theorem setCond_busy (s : State) (f : BitVec 3) : (s.setCond f).busy = s.busy := rfl
@[simp] theorem setCond_report (s : State) (f : BitVec 3) : (s.setCond f).report = s.report := rfl
@[simp] theorem setCond_cfg (s : State) (f : BitVec 3) : (s.setCond f).cfg = s.cfg := rfl
@[simp] theorem setCond_reg (s : State) (f : BitVec 3) (y : Reg) : (s.setCond f).reg y = s.reg y := rfl
@[simp] theorem setCond_peek (s : State) (f : BitVec 3) (d : Word) : (s.setCond f).peek d = s.peek d := rfl

/-! setRun -/

@[simp] theorem setRun_x (s : State) (m : RunState) : (s.setRun m).x = s.x := rfl
@[simp] theorem setRun_pc (s : State) (m : RunState) : (s.setRun m).pc = s.pc := rfl
@[simp] theorem setRun_cond (s : State) (m : RunState) : (s.setRun m).cond = s.cond := rfl
@[simp] theorem setRun_run (s : State) (m : RunState) : (s.setRun m).run = m := rfl
@[simp] theorem setRun_mem (s : State) (m : RunState) : (s.setRun m).mem = s.mem := rfl
@[simp] theorem setRun_kq (s : State) (m : RunState) : (s.setRun m).kq = s.kq := rfl
@[simp] theorem setRun_arrivals (s : State) (m : RunState) : (s.setRun m).arrivals = s.arrivals := rfl
@[simp] theorem setRun_outq (s : State) (m : RunState) : (s.setRun m).outq = s.outq := rfl
@[simp] theorem setRun_flushed (s : State) (m : RunState) : (s.setRun m).flushed = s.flushed := rfl
@[simp] theorem setRun_busy (s : State) (m : RunState) : (s.setRun m).busy = s.busy := rfl
@[simp] theorem setRun_report (s : State) (m : RunState) : (s.setRun m).report = s.report := rfl
@[simp] theorem setRun_cfg (s : State) (m : RunState) : (s.setRun m).cfg = s.cfg := rfl
@[simp] theorem setRun_reg (s : State) (m : RunState) (y : Reg) : (s.setRun m).reg y = s.reg y := rfl
@[simp] theorem setRun_peek (s : State) (m : RunState) (d : Word) : (s.setRun m).peek d = s.peek d := rfl

/-! setBusy -/

@[simp] theorem setBusy_x (s : State) (b : Busy) : (s.setBusy b).x = s.x := rfl
@[simp] theorem setBusy_pc (s : State) (b : Busy) : (s.setBusy b).pc = s.pc := rfl
@[simp] theorem setBusy_cond (s : State) (b : Busy) : (s.setBusy b).cond = s.cond := rfl
@[simp] theorem setBusy_run (s : State) (b : Busy) : (s.setBusy b).run = s.run := rfl
@[simp] theorem setBusy_mem (s : State) (b : Busy) : (s.setBusy b).mem = s.mem := rfl
@[simp] theorem setBusy_kq (s : State) (b : Busy) : (s.setBusy b).kq = s.kq := rfl
@[simp] theorem setBusy_arrivals (s : State) (b : Busy) : (s.setBusy b).arrivals = s.arrivals := rfl
@[simp] theorem setBusy_outq (s : State) (b : Busy) : (s.setBusy b).outq = s.outq := rfl
@[simp] theorem setBusy_flushed (s : State) (b : Busy) : (s.setBusy b).flushed = s.flushed := rfl
@[simp] theorem setBusy_busy (s : State) (b : Busy) : (s.setBusy b).busy = b := rfl
@[simp] theorem setBusy_report (s : State) (b : Busy) : (s.setBusy b).report = s.report := rfl
@[simp] theorem setBusy_cfg (s : State) (b : Busy) : (s.setBusy b).cfg = s.cfg := rfl
@[simp] theorem setBusy_reg (s : State) (b : Busy) (y : Reg) : (s.setBusy b).reg y = s.reg y := rfl
@[simp] theorem setBusy_peek (s : State) (b : Busy) (d : Word) : (s.setBusy b).peek d = s.peek d := rfl

/-! poke -/

@[simp] theorem poke_x (s : State) (a v : Word) : (s.poke a v).x = s.x := rfl
@[simp] theorem poke_pc (s : State) (a v : Word) : (s.poke a v).pc = s.pc := rfl
@[simp] theorem poke_cond (s : State) (a v : Word) : (s.poke a v).cond = s.cond := rfl
@[simp] theorem poke_run (s : State) (a v : Word) : (s.poke a v).run = s.run := rfl
@[simp] theorem poke_mem (s : State) (a v : Word) : (s.poke a v).mem = memSet s.mem a.toNat v := rfl
@[simp] theorem poke_kq (s : State) (a v : Word) : (s.poke a v).kq = s.kq := rfl
@[simp] theorem poke_arrivals (s : State) (a v : Word) : (s.poke a v).arrivals = s.arrivals := rfl
@[simp] theorem poke_outq (s : State) (a v : Word) : (s.poke a v).outq = s.outq := rfl
@[simp] theorem poke_flushed (s : State) (a v : Word) : (s.poke a v).flushed = s.flushed := rfl
@[simp] theorem poke_busy (s : State) (a v : Word) : (s.poke a v).busy = s.busy := rfl
@[simp] theorem poke_report (s : State) (a v : Word) : (s.poke a v).report = s.report := rfl
@[simp] theorem poke_cfg (s : State) (a v : Word) : (s.poke a v).cfg = s.cfg := rfl
@[simp] theorem poke_reg (s : State) (a v : Word) (y : Reg) : (s.poke a v).reg y = s.reg y := rfl

/-! setKq -/

@[simp] theorem setKq_x (s : State) (q : List Byte) : (s.setKq q).x = s.x := rfl
@[simp] theorem setKq_pc (s : State) (q : List Byte) : (s.setKq q).pc = s.pc := rfl
@[simp] theorem setKq_cond (s : State) (q : List Byte) : (s.setKq q).cond = s.cond := rfl
@[simp] theorem setKq_run (s : State) (q : List Byte) : (s.setKq q).run = s.run := rfl
@[simp] theorem setKq_mem (s : State) (q : List Byte) : (s.setKq q).mem = s.mem := rfl
@[simp] theorem setKq_kq (s : State) (q : List Byte) : (s.setKq q).kq = q := rfl
@[simp] theorem setKq_arrivals (s : State) (q : List Byte) : (s.setKq q).arrivals = s.arrivals := rfl
@[simp] theorem setKq_outq (s : State) (q : List Byte) : (s.setKq q).outq = s.outq := rfl
@[simp] theorem setKq_flushed (s : State) (q : List Byte) : (s.setKq q).flushed = s.flushed := rfl
@[simp] theorem setKq_busy (s : State) (q : List Byte) : (s.setKq q).busy = s.busy := rfl
@[simp] theorem setKq_report (s : State) (q : List Byte) : (s.setKq q).report = s.report := rfl
@[simp] theorem setKq_cfg (s : State) (q : List Byte) : (s.setKq q).cfg = s.cfg := rfl
@[simp] theorem setKq_reg (s : State) (q : List Byte) (y : Reg) : (s.setKq q).reg y = s.reg y := rfl
@[simp] theorem setKq_peek (s : State) (q : List Byte) (d : Word) : (s.setKq q).peek d = s.peek d := rfl

/-! consolePut -/

@[simp] theorem consolePut_x (s : State) (b : Byte) : (consolePut b s).x = s.x := rfl
@[simp] theorem consolePut_pc (s : State) (b : Byte) : (consolePut b s).pc = s.pc := rfl
@[simp] theorem consolePut_cond (s : State) (b : Byte) : (consolePut b s).cond = s.cond := rfl
@[simp] theorem consolePut_run (s : State) (b : Byte) : (consolePut b s).run = s.run := rfl
@[simp] theorem consolePut_mem (s : State) (b : Byte) : (consolePut b s).mem = s.mem := rfl
@[simp] theorem consolePut_kq (s : State) (b : Byte) : (consolePut b s).kq = s.kq := rfl
@[simp] theorem consolePut_arrivals (s : State) (b : Byte) : (consolePut b s).arrivals = s.arrivals := rfl
@[simp] theorem consolePut_outq (s : State) (b : Byte) : (consolePut b s).outq = s.outq ++ [b] := rfl
@[simp] theorem consolePut_flushed (s : State) (b : Byte) : (consolePut b s).flushed = s.flushed := rfl
@[simp] theorem consolePut_busy (s : State) (b : Byte) : (consolePut b s).busy = s.busy := rfl
@[simp] theorem consolePut_report (s : State) (b : Byte) : (consolePut b s).report = s.report := rfl
@[simp] theorem consolePut_cfg (s : State) (b : Byte) : (consolePut b s).cfg = s.cfg := rfl
@[simp] theorem consolePut_reg (s : State) (b : Byte) (y : Reg) : (consolePut b s).reg y = s.reg y := rfl
@[simp] theorem consolePut_peek (s : State) (b : Byte) (d : Word) : (consolePut b s).peek d = s.peek d := rfl

/-! consoleFlush -/

@[simp] theorem consoleFlush_x (s : State) : (consoleFlush s).x = s.x := rfl
@[simp] theorem consoleFlush_pc (s : State) : (consoleFlush s).pc = s.pc := rfl
@[simp] theorem consoleFlush_cond (s : State) : (consoleFlush s).cond = s.cond := rfl
@[simp] theorem consoleFlush_run (s : State) : (consoleFlush s).run = s.run := rfl
@[simp] theorem consoleFlush_mem (s : State) : (consoleFlush s).mem = s.mem := rfl
@[simp] theorem consoleFlush_kq (s : State) : (consoleFlush s).kq = s.kq := rfl
@[simp] theorem consoleFlush_arrivals (s : State) : (consoleFlush s).arrivals = s.arrivals := rfl
@[simp] theorem consoleFlush_outq (s : State) : (consoleFlush s).outq = s.outq := rfl
@[simp] theorem consoleFlush_flushed (s : State) : (consoleFlush s).flushed = s.outq.length := rfl
@[simp] theorem consoleFlush_busy (s : State) : (consoleFlush s).busy = s.busy := rfl
@[simp] theorem consoleFlush_report (s : State) : (consoleFlush s).report = s.report := rfl
@[simp] theorem consoleFlush_cfg (s : State) : (consoleFlush s).cfg = s.cfg := rfl
@[simp] theorem consoleFlush_reg (s : State) (y : Reg) : (consoleFlush s).reg y = s.reg y := rfl
@[simp] theorem consoleFlush_peek (s : State) (d : Word) : (consoleFlush s).peek d = s.peek d := rfl

/-! raiseFatal -/

@[simp] theorem raiseFatal_x (s : State) (c : FatalCondition) (w : Word) : (raiseFatal c w s).x = s.x := rfl
@[simp] theorem raiseFatal_pc (s : State) (c : FatalCondition) (w : Word) : (raiseFatal c w s).pc = s.pc := rfl
@[simp] theorem raiseFatal_cond (s : State) (c : FatalCondition) (w : Word) : (raiseFatal c w s).cond = s.cond := rfl
@[simp] theorem raiseFatal_run (s : State) (c : FatalCondition) (w : Word) : (raiseFatal c w s).run = .fatal := rfl
@[simp] theorem raiseFatal_mem (s : State) (c : FatalCondition) (w : Word) : (raiseFatal c w s).mem = s.mem := rfl
@[simp] theorem raiseFatal_kq (s : State) (c : FatalCondition) (w : Word) : (raiseFatal c w s).kq = s.kq := rfl
@[simp] theorem raiseFatal_arrivals (s : State) (c : FatalCondition) (w : Word) : (raiseFatal c w s).arrivals = s.arrivals := rfl
@[simp] theorem raiseFatal_outq (s : State) (c : FatalCondition) (w : Word) : (raiseFatal c w s).outq = s.outq := rfl
@[simp] theorem raiseFatal_flushed (s : State) (c : FatalCondition) (w : Word) : (raiseFatal c w s).flushed = s.flushed := rfl
@[simp] theorem raiseFatal_busy (s : State) (c : FatalCondition) (w : Word) : (raiseFatal c w s).busy = s.busy := rfl
@[simp] theorem raiseFatal_report (s : State) (c : FatalCondition) (w : Word) : (raiseFatal c w s).report = some { cond := c, word := w } := rfl
@[simp] theorem raiseFatal_cfg (s : State) (c : FatalCondition) (w : Word) : (raiseFatal c w s).cfg = s.cfg := rfl
@[simp] theorem raiseFatal_reg (s : State) (c : FatalCondition) (w : Word) (y : Reg) : (raiseFatal c w s).reg y = s.reg y := rfl
@[simp] theorem raiseFatal_peek (s : State) (c : FatalCondition) (w : Word) (d : Word) : (raiseFatal c w s).peek d = s.peek d := rfl

/-! The registers -/

/-- Reading after writing: the register written gives the value, every other register what it held. -/
theorem reg_setReg (s : State) (r q : Reg) (v : Word) :
    (s.setReg r v).reg q = if q = r then v else s.reg q := by
  unfold State.reg State.setReg
  by_cases h : q = r
  · subst h; simp
  · have hn : r.toNat ≠ q.toNat := fun e => h (BitVec.eq_of_toNat_eq e.symm)
    simp [h, hn]

@[simp] theorem reg_setReg_same (s : State) (r : Reg) (v : Word) : (s.setReg r v).reg r = v := by
  simp [reg_setReg]

theorem reg_setReg_other (s : State) (r q : Reg) (v : Word) (h : q ≠ r) : (s.setReg r v).reg q = s.reg q := by
  simp [reg_setReg, h]

/-! The link write -/

@[simp] theorem link_pc (s : State) : (link s).pc = s.pc := rfl
@[simp] theorem link_cond (s : State) : (link s).cond = s.cond := rfl
@[simp] theorem link_run (s : State) : (link s).run = s.run := rfl
@[simp] theorem link_mem (s : State) : (link s).mem = s.mem := rfl
@[simp] theorem link_kq (s : State) : (link s).kq = s.kq := rfl
@[simp] theorem link_arrivals (s : State) : (link s).arrivals = s.arrivals := rfl
@[simp] theorem link_outq (s : State) : (link s).outq = s.outq := rfl
@[simp] theorem link_flushed (s : State) : (link s).flushed = s.flushed := rfl
@[simp] theorem link_busy (s : State) : (link s).busy = s.busy := rfl
@[simp] theorem link_report (s : State) : (link s).report = s.report := rfl
@[simp] theorem link_cfg (s : State) : (link s).cfg = s.cfg := rfl
@[simp] theorem link_peek (s : State) (a : Word) : (link s).peek a = s.peek a := rfl

theorem link_reg (s : State) (q : Reg) : (link s).reg q = if q = 7#3 then s.pc else s.reg q := reg_setReg s 7#3 q s.pc

/-! setcc and writeResult -/

@[simp] theorem setcc_x (s : State) (r : Reg) : (setcc r s).x = s.x := rfl
@[simp] theorem setcc_pc (s : State) (r : Reg) : (setcc r s).pc = s.pc := rfl
@[simp] theorem setcc_run (s : State) (r : Reg) : (setcc r s).run = s.run := rfl
@[simp] theorem setcc_mem (s : State) (r : Reg) : (setcc r s).mem = s.mem := rfl
@[simp] theorem setcc_kq (s : State) (r : Reg) : (setcc r s).kq = s.kq := rfl
@[simp] theorem setcc_arrivals (s : State) (r : Reg) : (setcc r s).arrivals = s.arrivals := rfl
@[simp] theorem setcc_outq (s : State) (r : Reg) : (setcc r s).outq = s.outq := rfl
@[simp] theorem setcc_flushed (s : State) (r : Reg) : (setcc r s).flushed = s.flushed := rfl
@[simp] theorem setcc_busy (s : State) (r : Reg) : (setcc r s).busy = s.busy := rfl
@[simp] theorem setcc_report (s : State) (r : Reg) : (setcc r s).report = s.report := rfl
@[simp] theorem setcc_cfg (s : State) (r : Reg) : (setcc r s).cfg = s.cfg := rfl
@[simp] theorem setcc_reg (s : State) (r q : Reg) : (setcc r s).reg q = s.reg q := rfl
@[simp] theorem setcc_peek (s : State) (r : Reg) (a : Word) : (setcc r s).peek a = s.peek a := rfl
@[simp] theorem setcc_cond (s : State) (r : Reg) : (setcc r s).cond = flagOf s.cfg (s.reg r) := rfl

@[simp] theorem writeResult_pc (s : State) (r : Reg) (v : Word) : (writeResult r v s).pc = s.pc := rfl
@[simp] theorem writeResult_run (s : State) (r : Reg) (v : Word) : (writeResult r v s).run = s.run := rfl
@[simp] theorem writeResult_mem (s : State) (r : Reg) (v : Word) : (writeResult r v s).mem = s.mem := rfl
@[simp] theorem writeResult_kq (s : State) (r : Reg) (v : Word) : (writeResult r v s).kq = s.kq := rfl
@[simp] theorem writeResult_arrivals (s : State) (r : Reg) (v : Word) : (writeResult r v s).arrivals = s.arrivals := rfl
@[simp] theorem writeResult_outq (s : State) (r : Reg) (v : Word) : (writeResult r v s).outq = s.outq := rfl
@[simp] theorem writeResult_flushed (s : State) (r : Reg) (v : Word) : (writeResult r v s).flushed = s.flushed := rfl
@[simp] theorem writeResult_busy (s : State) (r : Reg) (v : Word) : (writeResult r v s).busy = s.busy := rfl
@[simp] theorem writeResult_report (s : State) (r : Reg) (v : Word) : (writeResult r v s).report = s.report := rfl
@[simp] theorem writeResult_cfg (s : State) (r : Reg) (v : Word) : (writeResult r v s).cfg = s.cfg := rfl
@[simp] theorem writeResult_peek (s : State) (r : Reg) (v a : Word) : (writeResult r v s).peek a = s.peek a := rfl
@[simp] theorem writeResult_cond (s : State) (r : Reg) (v : Word) : (writeResult r v s).cond = flagOf s.cfg v := by
  simp [writeResult]

theorem writeResult_reg (s : State) (r q : Reg) (v : Word) :
    (writeResult r v s).reg q = if q = r then v else s.reg q := by
  simp [writeResult, reg_setReg]

end Sys2Proof.Machine
end

