-- ==== Sys2Proof/Laws/Memory.lean ====
section
/-! SUPPORT. The laws of memory: a read after a write, and that every memory operation keeps the canonical form. The read
laws need no canonical form, so they hold in every state. -/

namespace Sys2Proof.Machine

/-- The entries at or below an address are not read past it. -/
theorem memGet_memAbove (m : Memory) (a b : Nat) :
    memGet (memAbove m a) b = if b ≤ a then 0x0000#16 else memGet m b := by
  induction m with
  | nil => simp [memAbove, memGet]
  | cons e rest ih =>
    obtain ⟨k, v⟩ := e
    simp only [memAbove]
    split
    · rename_i hk
      rw [ih]
      split
      · rfl
      · simp only [memGet]
        rw [if_neg (by omega), if_neg (by omega)]
    · rename_i hk
      split
      · simp only [memGet]
        rw [if_pos (by omega)]
      · rfl

/-- A read after a write: the address written gives the Word, every other address what it held. -/
theorem memGet_memSet (m : Memory) (a b : Nat) (v : Word) :
    memGet (memSet m a v) b = if b = a then v else memGet m b := by
  induction m with
  | nil =>
    by_cases hv : v = 0x0000#16
    · simp [memSet, memGet, hv]
    · by_cases hb : b = a
      · simp [memSet, memGet, hv, hb]
      · simp [memSet, memGet, hv, hb]
  | cons e rest ih =>
    obtain ⟨k, w⟩ := e
    simp only [memSet]
    split
    · rename_i hk
      simp only [memGet, ih]
      by_cases h1 : b < k
      · rw [if_pos h1, if_neg (by omega), if_pos h1]
      · rw [if_neg h1]
        by_cases h2 : b = k
        · rw [if_pos h2, if_neg (by omega), if_neg h1, if_pos h2]
        · rw [if_neg h2, if_neg h1, if_neg h2]
    · rename_i hk
      have key : b < a → memGet ((k, w) :: rest) b = 0x0000#16 := by
        intro h
        simp only [memGet]
        rw [if_pos (by omega)]
      split
      · rename_i hv
        rw [memGet_memAbove]
        by_cases hb : b = a
        · rw [if_pos (by omega), if_pos hb, hv]
        · rw [if_neg hb]
          split
          · exact (key (by omega)).symm
          · rfl
      · simp only [memGet.eq_2]
        by_cases hb : b = a
        · rw [if_neg (by omega), if_pos hb, if_pos hb]
        · rw [if_neg hb]
          by_cases hlt : b < a
          · have hk0 := key hlt
            simp only [memGet] at hk0
            rw [if_pos hlt, hk0, if_neg hb]
          · rw [if_neg hlt, if_neg hb, memGet_memAbove, if_neg (by omega)]
            simp only [memGet]

/-- A Word read after a Word stored (R56): the address stored to gives the value, every other address what it held. -/
theorem peek_poke (s : State) (a v b : Word) : (s.poke a v).peek b = if b = a then v else s.peek b := by
  unfold State.peek State.poke
  rw [memGet_memSet]
  by_cases h : b = a
  · simp [h]
  · have : ¬ b.toNat = a.toNat := fun e => h (BitVec.eq_of_toNat_eq e)
    simp [h, this]

@[simp] theorem peek_poke_same (s : State) (a v : Word) : (s.poke a v).peek a = v := by simp [peek_poke]

theorem peek_poke_other (s : State) (a v b : Word) (h : b ≠ a) : (s.poke a v).peek b = s.peek b := by
  simp [peek_poke, h]

@[simp] theorem poke_reg_keeps (s : State) (a v : Word) (q : Reg) : (s.poke a v).reg q = s.reg q := rfl

/-- The form from a bound on holds from every smaller bound on. -/
theorem memWfFrom_mono (m : Memory) (low low' : Nat) (h : memWfFrom low m = true) (hl : low' ≤ low) :
    memWfFrom low' m = true := by
  cases m with
  | nil => rfl
  | cons e rest =>
    obtain ⟨k, v⟩ := e
    simp only [memWfFrom, Bool.and_eq_true, decide_eq_true_eq] at h ⊢
    exact ⟨⟨⟨by omega, h.1.1.2⟩, h.1.2⟩, h.2⟩

/-- Dropping the entries at or below an address leaves the form from that address on. -/
theorem memAbove_wf (m : Memory) (low a : Nat) (h : memWfFrom low m = true) : memWfFrom (a + 1) (memAbove m a) = true := by
  induction m generalizing low with
  | nil => rfl
  | cons e rest ih =>
    obtain ⟨k, v⟩ := e
    simp only [memWfFrom, Bool.and_eq_true, decide_eq_true_eq] at h
    simp only [memAbove]
    split
    · exact ih _ h.2
    · simp only [memWfFrom, Bool.and_eq_true, decide_eq_true_eq]
      exact ⟨⟨⟨by omega, h.1.1.2⟩, h.1.2⟩, h.2⟩

/-- Storing a Word within the address space keeps the canonical form. -/
theorem memSet_wfFrom (m : Memory) (low a : Nat) (v : Word) (ha : a < 65536) (hl : low ≤ a)
    (h : memWfFrom low m = true) : memWfFrom low (memSet m a v) = true := by
  induction m generalizing low with
  | nil =>
    simp only [memSet]
    split
    · rfl
    · rename_i hv
      simp [memWfFrom, ha, hl, hv]
  | cons e rest ih =>
    obtain ⟨k, w⟩ := e
    have h' := h
    simp only [memWfFrom, Bool.and_eq_true, decide_eq_true_eq] at h
    simp only [memSet]
    split
    · rename_i hk
      simp only [memWfFrom, Bool.and_eq_true, decide_eq_true_eq]
      exact ⟨h.1, ih _ (by omega) h.2⟩
    · have hab := memAbove_wf _ _ a h'
      split
      · exact memWfFrom_mono _ _ _ hab (by omega)
      · rename_i hv
        simp only [memWfFrom, Bool.and_eq_true, decide_eq_true_eq]
        exact ⟨⟨⟨hl, ha⟩, hv⟩, hab⟩

theorem memSet_wf (m : Memory) (a : Nat) (v : Word) (ha : a < 65536) (h : m.wf = true) : (memSet m a v).wf = true :=
  memSet_wfFrom m 0 a v ha (Nat.zero_le a) h

/-- `MEM[a] <- v` keeps the canonical form. -/
theorem poke_wf (s : State) (a v : Word) (h : s.mem.wf = true) : (s.poke a v).mem.wf = true :=
  memSet_wf s.mem a.toNat v a.isLt h

end Sys2Proof.Machine
end

