-- ==== Sys2Proof/Laws/Console.lean ====
section
/-! SUPPORT. What the console operations and the two access primitives can do, said once each. -/

namespace Sys2Proof.Machine

/-! hostTurn: only the input side moves, and the bytes to be seen stay the same. -/

@[simp] theorem hostTurn_x (s : State) : (hostTurn s).x = s.x := rfl
@[simp] theorem hostTurn_pc (s : State) : (hostTurn s).pc = s.pc := rfl
@[simp] theorem hostTurn_cond (s : State) : (hostTurn s).cond = s.cond := rfl
@[simp] theorem hostTurn_run (s : State) : (hostTurn s).run = s.run := rfl
@[simp] theorem hostTurn_mem (s : State) : (hostTurn s).mem = s.mem := rfl
@[simp] theorem hostTurn_outq (s : State) : (hostTurn s).outq = s.outq := rfl
@[simp] theorem hostTurn_flushed (s : State) : (hostTurn s).flushed = s.flushed := rfl
@[simp] theorem hostTurn_busy (s : State) : (hostTurn s).busy = s.busy := rfl
@[simp] theorem hostTurn_report (s : State) : (hostTurn s).report = s.report := rfl
@[simp] theorem hostTurn_cfg (s : State) : (hostTurn s).cfg = s.cfg := rfl
@[simp] theorem hostTurn_reg (s : State) (q : Reg) : (hostTurn s).reg q = s.reg q := by simp [State.reg]
@[simp] theorem hostTurn_peek (s : State) (a : Word) : (hostTurn s).peek a = s.peek a := by simp [State.peek]

/-- Looks in two parts. -/
theorem planAfter_add (m n : Nat) (p : HostPlan) : planAfter (m + n) p = planAfter n (planAfter m p) := by
  induction m generalizing p with
  | zero => rw [Nat.zero_add]; rfl
  | succ m ih => rw [Nat.succ_add]; exact ih _

/-- The bytes of looks in two parts. -/
theorem upcoming_add (m n : Nat) (p : HostPlan) : upcoming (m + n) p = upcoming m p ++ upcoming n (planAfter m p) := by
  induction m generalizing p with
  | zero => rw [Nat.zero_add]; rfl
  | succ m ih => rw [Nat.succ_add, upcoming, upcoming, planAfter, ih, List.append_assoc]

/-- Without a look. -/
theorem inputMoves_of_eq {s t : State} (hk : t.kq = s.kq) (ha : t.arrivals = s.arrivals) : InputMoves s t :=
  ⟨0, ha, by rw [hk, upcoming, List.append_nil]⟩

/-- One move after another. -/
theorem InputMoves.trans {s t u : State} (h : InputMoves s t) (h' : InputMoves t u) : InputMoves s u := by
  obtain ⟨m, ha, c, hc⟩ := h
  obtain ⟨n, ha', c', hc'⟩ := h'
  refine ⟨m + n, by rw [planAfter_add, ← ha, ha'], c ++ c', ?_⟩
  rw [upcoming_add, ← List.append_assoc, ← hc, ← ha, List.append_assoc, List.append_assoc, hc']

/-- A look. -/
theorem hostTurn_moves (s : State) : InputMoves s (hostTurn s) :=
  ⟨1, rfl, by simp [upcoming, hostTurn]⟩

/-- A silent host changes nothing. -/
theorem hostTurn_of_silent (s : State) (h : s.arrivals = .silent) : hostTurn s = s := by
  cases s
  simp only at h
  subst h
  simp [hostTurn, nextBatch, HostPlan.silent]

/-- With nothing pending and nothing to come before the next look, KQ stays empty, and so it is with the looks after it. -/
theorem hostTurn_of_no_input (s : State) (hk : s.kq = []) (ha : ∀ n, upcoming n s.arrivals = []) :
    (hostTurn s).kq = [] ∧ ∀ n, upcoming n (hostTurn s).arrivals = [] := by
  have h1 : (nextBatch s.arrivals).1 = [] := by simpa [upcoming] using ha 1
  refine ⟨by simp [hostTurn, hk, h1], fun n => ?_⟩
  have h := ha (n + 1)
  rw [upcoming, h1] at h
  exact h

/-! takeByte -/

/-- A byte taken is the oldest one, and nothing else changes. -/
theorem takeByte_eq_some (s t : State) (b : Byte) :
    takeByte s = some (b, t) ↔ ∃ later, s.kq = b :: later ∧ t = s.setKq later := by
  unfold takeByte
  cases h : s.kq with
  | nil => simp
  | cons c later =>
    simp only [Option.some.injEq, Prod.mk.injEq, List.cons.injEq]
    constructor
    · rintro ⟨rfl, rfl⟩
      exact ⟨later, ⟨rfl, rfl⟩, rfl⟩
    · rintro ⟨l, ⟨rfl, rfl⟩, rfl⟩
      exact ⟨rfl, rfl⟩

theorem takeByte_eq_none (s : State) : takeByte s = none ↔ s.kq = [] := by
  unfold takeByte
  cases h : s.kq <;> simp

/-- Taking from a queue with an oldest byte. -/
theorem takeByte_cons (s : State) (b : Byte) (later : List Byte) (h : s.kq = b :: later) :
    takeByte s = some (b, s.setKq later) := by
  unfold takeByte
  rw [h]

/-! consolePuts -/

/-- Writing a list of bytes appends them to OUTQ and changes nothing else. -/
theorem consolePuts_eq (bs : List Byte) (s : State) : consolePuts bs s = { s with outq := s.outq ++ bs } := by
  induction bs generalizing s with
  | nil => simp [consolePuts]
  | cons b rest ih => simp [consolePuts, ih, consolePut]

@[simp] theorem consolePuts_x (bs : List Byte) (s : State) : (consolePuts bs s).x = s.x := by rw [consolePuts_eq]
@[simp] theorem consolePuts_pc (bs : List Byte) (s : State) : (consolePuts bs s).pc = s.pc := by rw [consolePuts_eq]
@[simp] theorem consolePuts_cond (bs : List Byte) (s : State) : (consolePuts bs s).cond = s.cond := by rw [consolePuts_eq]
@[simp] theorem consolePuts_run (bs : List Byte) (s : State) : (consolePuts bs s).run = s.run := by rw [consolePuts_eq]
@[simp] theorem consolePuts_mem (bs : List Byte) (s : State) : (consolePuts bs s).mem = s.mem := by rw [consolePuts_eq]
@[simp] theorem consolePuts_kq (bs : List Byte) (s : State) : (consolePuts bs s).kq = s.kq := by rw [consolePuts_eq]
@[simp] theorem consolePuts_arrivals (bs : List Byte) (s : State) : (consolePuts bs s).arrivals = s.arrivals := by rw [consolePuts_eq]
@[simp] theorem consolePuts_flushed (bs : List Byte) (s : State) : (consolePuts bs s).flushed = s.flushed := by rw [consolePuts_eq]
@[simp] theorem consolePuts_busy (bs : List Byte) (s : State) : (consolePuts bs s).busy = s.busy := by rw [consolePuts_eq]
@[simp] theorem consolePuts_report (bs : List Byte) (s : State) : (consolePuts bs s).report = s.report := by rw [consolePuts_eq]
@[simp] theorem consolePuts_cfg (bs : List Byte) (s : State) : (consolePuts bs s).cfg = s.cfg := by rw [consolePuts_eq]
@[simp] theorem consolePuts_outq (bs : List Byte) (s : State) : (consolePuts bs s).outq = s.outq ++ bs := by rw [consolePuts_eq]
@[simp] theorem consolePuts_reg (bs : List Byte) (s : State) (q : Reg) : (consolePuts bs s).reg q = s.reg q := by simp [State.reg]
@[simp] theorem consolePuts_peek (bs : List Byte) (s : State) (a : Word) : (consolePuts bs s).peek a = s.peek a := by simp [State.peek]

/-! keyboardPoll -/

/-- R53: input is pending at the poll. -/
theorem keyboardPoll_ready (s : State) (b : Byte) (later : List Byte) (h : (hostTurn s).kq = b :: later) :
    keyboardPoll s = (((hostTurn s).setKq later).poke s.cfg.kbsr 0x8000#16).poke s.cfg.kbdr (zext8 b) := by
  unfold keyboardPoll
  rw [takeByte_cons _ _ _ h]
  simp

/-- R54: no input is pending at the poll. -/
theorem keyboardPoll_clear (s : State) (h : (hostTurn s).kq = []) :
    keyboardPoll s = (hostTurn s).poke s.cfg.kbsr 0x0000#16 := by
  unfold keyboardPoll
  rw [(takeByte_eq_none _).mpr h]

/-- The two cases of a poll. -/
theorem keyboardPoll_cases (s : State) :
    (∃ b later, (hostTurn s).kq = b :: later ∧
      keyboardPoll s = (((hostTurn s).setKq later).poke s.cfg.kbsr 0x8000#16).poke s.cfg.kbdr (zext8 b)) ∨
    ((hostTurn s).kq = [] ∧ keyboardPoll s = (hostTurn s).poke s.cfg.kbsr 0x0000#16) := by
  cases h : (hostTurn s).kq with
  | nil => exact .inr ⟨rfl, keyboardPoll_clear s h⟩
  | cons b later => exact .inl ⟨b, later, rfl, keyboardPoll_ready s b later h⟩

/-! A poll changes MEM[KBSR], MEM[KBDR] and the input queue, and nothing else. -/

@[simp] theorem keyboardPoll_x (s : State) : (keyboardPoll s).x = s.x := by
  rcases keyboardPoll_cases s with ⟨b, l, _, h⟩ | ⟨_, h⟩ <;> rw [h] <;> simp
@[simp] theorem keyboardPoll_pc (s : State) : (keyboardPoll s).pc = s.pc := by
  rcases keyboardPoll_cases s with ⟨b, l, _, h⟩ | ⟨_, h⟩ <;> rw [h] <;> simp
@[simp] theorem keyboardPoll_cond (s : State) : (keyboardPoll s).cond = s.cond := by
  rcases keyboardPoll_cases s with ⟨b, l, _, h⟩ | ⟨_, h⟩ <;> rw [h] <;> simp
@[simp] theorem keyboardPoll_run (s : State) : (keyboardPoll s).run = s.run := by
  rcases keyboardPoll_cases s with ⟨b, l, _, h⟩ | ⟨_, h⟩ <;> rw [h] <;> simp
@[simp] theorem keyboardPoll_outq (s : State) : (keyboardPoll s).outq = s.outq := by
  rcases keyboardPoll_cases s with ⟨b, l, _, h⟩ | ⟨_, h⟩ <;> rw [h] <;> simp
@[simp] theorem keyboardPoll_flushed (s : State) : (keyboardPoll s).flushed = s.flushed := by
  rcases keyboardPoll_cases s with ⟨b, l, _, h⟩ | ⟨_, h⟩ <;> rw [h] <;> simp
@[simp] theorem keyboardPoll_busy (s : State) : (keyboardPoll s).busy = s.busy := by
  rcases keyboardPoll_cases s with ⟨b, l, _, h⟩ | ⟨_, h⟩ <;> rw [h] <;> simp
@[simp] theorem keyboardPoll_report (s : State) : (keyboardPoll s).report = s.report := by
  rcases keyboardPoll_cases s with ⟨b, l, _, h⟩ | ⟨_, h⟩ <;> rw [h] <;> simp
@[simp] theorem keyboardPoll_cfg (s : State) : (keyboardPoll s).cfg = s.cfg := by
  rcases keyboardPoll_cases s with ⟨b, l, _, h⟩ | ⟨_, h⟩ <;> rw [h] <;> simp
@[simp] theorem keyboardPoll_reg (s : State) (q : Reg) : (keyboardPoll s).reg q = s.reg q := by simp [State.reg]

theorem keyboardPoll_peek_other (s : State) (a : Word) (h1 : a ≠ s.cfg.kbsr) (h2 : a ≠ s.cfg.kbdr) :
    (keyboardPoll s).peek a = s.peek a := by
  rcases keyboardPoll_cases s with ⟨b, l, _, h⟩ | ⟨_, h⟩
  · rw [h, peek_poke_other _ _ _ _ h2, peek_poke_other _ _ _ _ h1]
    exact hostTurn_peek s a
  · rw [h, peek_poke_other _ _ _ _ h1]
    exact hostTurn_peek s a

theorem keyboardPoll_wf (s : State) (h : s.mem.wf = true) : (keyboardPoll s).mem.wf = true := by
  rcases keyboardPoll_cases s with ⟨b, l, _, e⟩ | ⟨_, e⟩ <;> rw [e]
  · exact poke_wf _ _ _ (poke_wf _ _ _ (by simpa using h))
  · exact poke_wf _ _ _ (by simpa using h)

/-- A poll is one look and consumes at most one byte, the oldest. -/
theorem keyboardPoll_moves (s : State) : InputMoves s (keyboardPoll s) := by
  refine (hostTurn_moves s).trans ?_
  rcases keyboardPoll_cases s with ⟨b, l, hk, e⟩ | ⟨_, e⟩ <;> rw [e]
  · exact ⟨0, rfl, [b], by simp [upcoming, hk]⟩
  · exact inputMoves_of_eq rfl rfl

/-! memRead -/

/-- R52: a read at any other address returns MEM[a] and changes nothing. -/
theorem memRead_other (s : State) (a : Word) (h : a ≠ s.cfg.kbsr) : memRead s a = (s.peek a, s) := if_neg h

theorem memRead_kbsr (s : State) : memRead s s.cfg.kbsr = ((keyboardPoll s).peek s.cfg.kbsr, keyboardPoll s) := if_pos rfl

/-- The two cases of a read, for what it does to the state. -/
theorem memRead_state (s : State) (a : Word) : (memRead s a).2 = s ∨ (memRead s a).2 = keyboardPoll s := by
  unfold memRead
  split
  · exact .inr rfl
  · exact .inl rfl

@[simp] theorem memRead_x (s : State) (a : Word) : (memRead s a).2.x = s.x := by
  rcases memRead_state s a with h | h <;> rw [h]; simp
@[simp] theorem memRead_pc (s : State) (a : Word) : (memRead s a).2.pc = s.pc := by
  rcases memRead_state s a with h | h <;> rw [h]; simp
@[simp] theorem memRead_cond (s : State) (a : Word) : (memRead s a).2.cond = s.cond := by
  rcases memRead_state s a with h | h <;> rw [h]; simp
@[simp] theorem memRead_run (s : State) (a : Word) : (memRead s a).2.run = s.run := by
  rcases memRead_state s a with h | h <;> rw [h]; simp
@[simp] theorem memRead_outq (s : State) (a : Word) : (memRead s a).2.outq = s.outq := by
  rcases memRead_state s a with h | h <;> rw [h]; simp
@[simp] theorem memRead_flushed (s : State) (a : Word) : (memRead s a).2.flushed = s.flushed := by
  rcases memRead_state s a with h | h <;> rw [h]; simp
@[simp] theorem memRead_busy (s : State) (a : Word) : (memRead s a).2.busy = s.busy := by
  rcases memRead_state s a with h | h <;> rw [h]; simp
@[simp] theorem memRead_report (s : State) (a : Word) : (memRead s a).2.report = s.report := by
  rcases memRead_state s a with h | h <;> rw [h]; simp
@[simp] theorem memRead_cfg (s : State) (a : Word) : (memRead s a).2.cfg = s.cfg := by
  rcases memRead_state s a with h | h <;> rw [h]; simp
@[simp] theorem memRead_reg (s : State) (a : Word) (q : Reg) : (memRead s a).2.reg q = s.reg q := by simp [State.reg]

theorem memRead_peek_other (s : State) (a b : Word) (h1 : b ≠ s.cfg.kbsr) (h2 : b ≠ s.cfg.kbdr) :
    (memRead s a).2.peek b = s.peek b := by
  rcases memRead_state s a with h | h <;> rw [h]
  exact keyboardPoll_peek_other s b h1 h2

theorem memRead_wf (s : State) (a : Word) (h : s.mem.wf = true) : (memRead s a).2.mem.wf = true := by
  rcases memRead_state s a with e | e <;> rw [e]
  · exact h
  · exact keyboardPoll_wf s h

/-- A read is at most one look. -/
theorem memRead_moves (s : State) (a : Word) : InputMoves s (memRead s a).2 := by
  rcases memRead_state s a with e | e <;> rw [e]
  · exact inputMoves_of_eq rfl rfl
  · exact keyboardPoll_moves s

end Sys2Proof.Machine
end

