-- ==== Sys2Proof/Laws/Decode.lean ====
section
/-! SUPPORT. The fields of Words laid out as R83 lays them out, and the decoder's answer for each layout. The ignored bits
are variables, so the answer does not depend on them. -/

namespace Sys2Proof

/-- A concatenation as a number: the left part above the right part. -/
theorem toNat_cat {a b : Nat} (x : BitVec a) (y : BitVec b) : (x ++ y).toNat = x.toNat * 2 ^ b + y.toNat := by
  rw [BitVec.toNat_append, ← Nat.shiftLeft_add_eq_or_of_lt y.isLt, Nat.shiftLeft_eq]

/-- A range of bits as a number. -/
theorem toNat_extract (w : Word) (start n : Nat) : (w.extractLsb' start n).toNat = w.toNat / 2 ^ start % 2 ^ n := by
  rw [BitVec.extractLsb'_toNat, Nat.shiftRight_eq_div_pow]

/-! Words of each layout as numbers; the widths are those of R83. -/

theorem layout_4_3_9 (a : BitVec 4) (b : BitVec 3) (c : BitVec 9) :
    BitVec.toNat (w := 16) (a ++ b ++ c) = ((a.toNat) * 2 ^ 3 + b.toNat) * 2 ^ 9 + c.toNat := by
  have h : ((a ++ b ++ c)).toNat = ((a.toNat) * 2 ^ 3 + b.toNat) * 2 ^ 9 + c.toNat := by rw [toNat_cat, toNat_cat]
  exact h

theorem layout_4_3_3_1_2_3 (a : BitVec 4) (b : BitVec 3) (c : BitVec 3) (d : BitVec 1) (e : BitVec 2) (f : BitVec 3) :
    BitVec.toNat (w := 16) (a ++ b ++ c ++ d ++ e ++ f) = (((((a.toNat) * 2 ^ 3 + b.toNat) * 2 ^ 3 + c.toNat) * 2 ^ 1 + d.toNat) * 2 ^ 2 + e.toNat) * 2 ^ 3 + f.toNat := by
  have h : ((a ++ b ++ c ++ d ++ e ++ f)).toNat = (((((a.toNat) * 2 ^ 3 + b.toNat) * 2 ^ 3 + c.toNat) * 2 ^ 1 + d.toNat) * 2 ^ 2 + e.toNat) * 2 ^ 3 + f.toNat := by rw [toNat_cat, toNat_cat, toNat_cat, toNat_cat, toNat_cat]
  exact h

theorem layout_4_3_3_1_5 (a : BitVec 4) (b : BitVec 3) (c : BitVec 3) (d : BitVec 1) (e : BitVec 5) :
    BitVec.toNat (w := 16) (a ++ b ++ c ++ d ++ e) = ((((a.toNat) * 2 ^ 3 + b.toNat) * 2 ^ 3 + c.toNat) * 2 ^ 1 + d.toNat) * 2 ^ 5 + e.toNat := by
  have h : ((a ++ b ++ c ++ d ++ e)).toNat = ((((a.toNat) * 2 ^ 3 + b.toNat) * 2 ^ 3 + c.toNat) * 2 ^ 1 + d.toNat) * 2 ^ 5 + e.toNat := by rw [toNat_cat, toNat_cat, toNat_cat, toNat_cat]
  exact h

theorem layout_4_1_11 (a : BitVec 4) (b : BitVec 1) (c : BitVec 11) :
    BitVec.toNat (w := 16) (a ++ b ++ c) = ((a.toNat) * 2 ^ 1 + b.toNat) * 2 ^ 11 + c.toNat := by
  have h : ((a ++ b ++ c)).toNat = ((a.toNat) * 2 ^ 1 + b.toNat) * 2 ^ 11 + c.toNat := by rw [toNat_cat, toNat_cat]
  exact h

theorem layout_4_1_2_3_6 (a : BitVec 4) (b : BitVec 1) (c : BitVec 2) (d : BitVec 3) (e : BitVec 6) :
    BitVec.toNat (w := 16) (a ++ b ++ c ++ d ++ e) = ((((a.toNat) * 2 ^ 1 + b.toNat) * 2 ^ 2 + c.toNat) * 2 ^ 3 + d.toNat) * 2 ^ 6 + e.toNat := by
  have h : ((a ++ b ++ c ++ d ++ e)).toNat = ((((a.toNat) * 2 ^ 1 + b.toNat) * 2 ^ 2 + c.toNat) * 2 ^ 3 + d.toNat) * 2 ^ 6 + e.toNat := by rw [toNat_cat, toNat_cat, toNat_cat, toNat_cat]
  exact h

theorem layout_4_3_3_6 (a : BitVec 4) (b : BitVec 3) (c : BitVec 3) (d : BitVec 6) :
    BitVec.toNat (w := 16) (a ++ b ++ c ++ d) = (((a.toNat) * 2 ^ 3 + b.toNat) * 2 ^ 3 + c.toNat) * 2 ^ 6 + d.toNat := by
  have h : ((a ++ b ++ c ++ d)).toNat = (((a.toNat) * 2 ^ 3 + b.toNat) * 2 ^ 3 + c.toNat) * 2 ^ 6 + d.toNat := by rw [toNat_cat, toNat_cat, toNat_cat]
  exact h

theorem layout_4_12 (a : BitVec 4) (b : BitVec 12) :
    BitVec.toNat (w := 16) (a ++ b) = (a.toNat) * 2 ^ 12 + b.toNat := by
  have h : ((a ++ b)).toNat = (a.toNat) * 2 ^ 12 + b.toNat := by rw [toNat_cat]
  exact h

theorem layout_4_4_8 (a : BitVec 4) (b : BitVec 4) (c : BitVec 8) :
    BitVec.toNat (w := 16) (a ++ b ++ c) = ((a.toNat) * 2 ^ 4 + b.toNat) * 2 ^ 8 + c.toNat := by
  have h : ((a ++ b ++ c)).toNat = ((a.toNat) * 2 ^ 4 + b.toNat) * 2 ^ 8 + c.toNat := by rw [toNat_cat, toNat_cat]
  exact h

/-! The decoder on each layout. -/

theorem decode_br (c : Config) (nzp : BitVec 3) (off9 : BitVec 9) :
    decode c (0b0000#4 ++ nzp ++ off9) = .br nzp off9 := by
  have h := layout_4_3_9 0b0000#4 nzp off9
  have := nzp.isLt
  have := off9.isLt
  have h0 : fieldOpcode (0b0000#4 ++ nzp ++ off9) = 0b0000#4 := by
    apply BitVec.eq_of_toNat_eq
    rw [fieldOpcode, toNat_extract, h]
    simp
    try omega
  have h1 : fieldDr (0b0000#4 ++ nzp ++ off9) = nzp := by
    apply BitVec.eq_of_toNat_eq
    rw [fieldDr, toNat_extract, h]
    simp
    try omega
  have h2 : fieldOff9 (0b0000#4 ++ nzp ++ off9) = off9 := by
    apply BitVec.eq_of_toNat_eq
    rw [fieldOff9, toNat_extract, h]
    simp
    try omega
  generalize ((0b0000#4 ++ nzp ++ off9) : Word) = w at *
  simp [decode, h0, h1, h2]

theorem decode_addReg (c : Config) (dr : BitVec 3) (sr1 : BitVec 3) (ign : BitVec 2) (sr2 : BitVec 3) :
    decode c (0b0001#4 ++ dr ++ sr1 ++ 0b0#1 ++ ign ++ sr2) = .addReg dr sr1 sr2 := by
  have h := layout_4_3_3_1_2_3 0b0001#4 dr sr1 0b0#1 ign sr2
  have := dr.isLt
  have := sr1.isLt
  have := ign.isLt
  have := sr2.isLt
  have h0 : fieldOpcode (0b0001#4 ++ dr ++ sr1 ++ 0b0#1 ++ ign ++ sr2) = 0b0001#4 := by
    apply BitVec.eq_of_toNat_eq
    rw [fieldOpcode, toNat_extract, h]
    simp
    try omega
  have h1 : fieldDr (0b0001#4 ++ dr ++ sr1 ++ 0b0#1 ++ ign ++ sr2) = dr := by
    apply BitVec.eq_of_toNat_eq
    rw [fieldDr, toNat_extract, h]
    simp
    try omega
  have h2 : fieldBase (0b0001#4 ++ dr ++ sr1 ++ 0b0#1 ++ ign ++ sr2) = sr1 := by
    apply BitVec.eq_of_toNat_eq
    rw [fieldBase, toNat_extract, h]
    simp
    try omega
  have h3 : fieldMode (0b0001#4 ++ dr ++ sr1 ++ 0b0#1 ++ ign ++ sr2) = 0b0#1 := by
    apply BitVec.eq_of_toNat_eq
    rw [fieldMode, toNat_extract, h]
    simp
    try omega
  have h4 : fieldSr2 (0b0001#4 ++ dr ++ sr1 ++ 0b0#1 ++ ign ++ sr2) = sr2 := by
    apply BitVec.eq_of_toNat_eq
    rw [fieldSr2, toNat_extract, h]
    simp
    try omega
  generalize ((0b0001#4 ++ dr ++ sr1 ++ 0b0#1 ++ ign ++ sr2) : Word) = w at *
  simp [decode, h0, h1, h2, h3, h4]

theorem decode_addImm (c : Config) (dr : BitVec 3) (sr1 : BitVec 3) (imm5 : BitVec 5) :
    decode c (0b0001#4 ++ dr ++ sr1 ++ 0b1#1 ++ imm5) = .addImm dr sr1 imm5 := by
  have h := layout_4_3_3_1_5 0b0001#4 dr sr1 0b1#1 imm5
  have := dr.isLt
  have := sr1.isLt
  have := imm5.isLt
  have h0 : fieldOpcode (0b0001#4 ++ dr ++ sr1 ++ 0b1#1 ++ imm5) = 0b0001#4 := by
    apply BitVec.eq_of_toNat_eq
    rw [fieldOpcode, toNat_extract, h]
    simp
    try omega
  have h1 : fieldDr (0b0001#4 ++ dr ++ sr1 ++ 0b1#1 ++ imm5) = dr := by
    apply BitVec.eq_of_toNat_eq
    rw [fieldDr, toNat_extract, h]
    simp
    try omega
  have h2 : fieldBase (0b0001#4 ++ dr ++ sr1 ++ 0b1#1 ++ imm5) = sr1 := by
    apply BitVec.eq_of_toNat_eq
    rw [fieldBase, toNat_extract, h]
    simp
    try omega
  have h3 : fieldMode (0b0001#4 ++ dr ++ sr1 ++ 0b1#1 ++ imm5) = 0b1#1 := by
    apply BitVec.eq_of_toNat_eq
    rw [fieldMode, toNat_extract, h]
    simp
    try omega
  have h4 : fieldImm5 (0b0001#4 ++ dr ++ sr1 ++ 0b1#1 ++ imm5) = imm5 := by
    apply BitVec.eq_of_toNat_eq
    rw [fieldImm5, toNat_extract, h]
    simp
    try omega
  generalize ((0b0001#4 ++ dr ++ sr1 ++ 0b1#1 ++ imm5) : Word) = w at *
  simp [decode, h0, h1, h2, h3, h4]

theorem decode_ld (c : Config) (dr : BitVec 3) (off9 : BitVec 9) :
    decode c (0b0010#4 ++ dr ++ off9) = .ld dr off9 := by
  have h := layout_4_3_9 0b0010#4 dr off9
  have := dr.isLt
  have := off9.isLt
  have h0 : fieldOpcode (0b0010#4 ++ dr ++ off9) = 0b0010#4 := by
    apply BitVec.eq_of_toNat_eq
    rw [fieldOpcode, toNat_extract, h]
    simp
    try omega
  have h1 : fieldDr (0b0010#4 ++ dr ++ off9) = dr := by
    apply BitVec.eq_of_toNat_eq
    rw [fieldDr, toNat_extract, h]
    simp
    try omega
  have h2 : fieldOff9 (0b0010#4 ++ dr ++ off9) = off9 := by
    apply BitVec.eq_of_toNat_eq
    rw [fieldOff9, toNat_extract, h]
    simp
    try omega
  generalize ((0b0010#4 ++ dr ++ off9) : Word) = w at *
  simp [decode, h0, h1, h2]

theorem decode_st (c : Config) (sr : BitVec 3) (off9 : BitVec 9) :
    decode c (0b0011#4 ++ sr ++ off9) = .st sr off9 := by
  have h := layout_4_3_9 0b0011#4 sr off9
  have := sr.isLt
  have := off9.isLt
  have h0 : fieldOpcode (0b0011#4 ++ sr ++ off9) = 0b0011#4 := by
    apply BitVec.eq_of_toNat_eq
    rw [fieldOpcode, toNat_extract, h]
    simp
    try omega
  have h1 : fieldDr (0b0011#4 ++ sr ++ off9) = sr := by
    apply BitVec.eq_of_toNat_eq
    rw [fieldDr, toNat_extract, h]
    simp
    try omega
  have h2 : fieldOff9 (0b0011#4 ++ sr ++ off9) = off9 := by
    apply BitVec.eq_of_toNat_eq
    rw [fieldOff9, toNat_extract, h]
    simp
    try omega
  generalize ((0b0011#4 ++ sr ++ off9) : Word) = w at *
  simp [decode, h0, h1, h2]

theorem decode_jsr (c : Config) (off11 : BitVec 11) :
    decode c (0b0100#4 ++ 0b1#1 ++ off11) = .jsr off11 := by
  have h := layout_4_1_11 0b0100#4 0b1#1 off11
  have := off11.isLt
  have h0 : fieldOpcode (0b0100#4 ++ 0b1#1 ++ off11) = 0b0100#4 := by
    apply BitVec.eq_of_toNat_eq
    rw [fieldOpcode, toNat_extract, h]
    simp
    try omega
  have h1 : fieldFlag (0b0100#4 ++ 0b1#1 ++ off11) = 0b1#1 := by
    apply BitVec.eq_of_toNat_eq
    rw [fieldFlag, toNat_extract, h]
    simp
    try omega
  have h2 : fieldOff11 (0b0100#4 ++ 0b1#1 ++ off11) = off11 := by
    apply BitVec.eq_of_toNat_eq
    rw [fieldOff11, toNat_extract, h]
    simp
    try omega
  generalize ((0b0100#4 ++ 0b1#1 ++ off11) : Word) = w at *
  simp [decode, h0, h1, h2]

theorem decode_jsrr (c : Config) (ign : BitVec 2) (base : BitVec 3) (ign2 : BitVec 6) :
    decode c (0b0100#4 ++ 0b0#1 ++ ign ++ base ++ ign2) = .jsrr base := by
  have h := layout_4_1_2_3_6 0b0100#4 0b0#1 ign base ign2
  have := ign.isLt
  have := base.isLt
  have := ign2.isLt
  have h0 : fieldOpcode (0b0100#4 ++ 0b0#1 ++ ign ++ base ++ ign2) = 0b0100#4 := by
    apply BitVec.eq_of_toNat_eq
    rw [fieldOpcode, toNat_extract, h]
    simp
    try omega
  have h1 : fieldFlag (0b0100#4 ++ 0b0#1 ++ ign ++ base ++ ign2) = 0b0#1 := by
    apply BitVec.eq_of_toNat_eq
    rw [fieldFlag, toNat_extract, h]
    simp
    try omega
  have h2 : fieldBase (0b0100#4 ++ 0b0#1 ++ ign ++ base ++ ign2) = base := by
    apply BitVec.eq_of_toNat_eq
    rw [fieldBase, toNat_extract, h]
    simp
    try omega
  generalize ((0b0100#4 ++ 0b0#1 ++ ign ++ base ++ ign2) : Word) = w at *
  simp [decode, h0, h1, h2]

theorem decode_andReg (c : Config) (dr : BitVec 3) (sr1 : BitVec 3) (ign : BitVec 2) (sr2 : BitVec 3) :
    decode c (0b0101#4 ++ dr ++ sr1 ++ 0b0#1 ++ ign ++ sr2) = .andReg dr sr1 sr2 := by
  have h := layout_4_3_3_1_2_3 0b0101#4 dr sr1 0b0#1 ign sr2
  have := dr.isLt
  have := sr1.isLt
  have := ign.isLt
  have := sr2.isLt
  have h0 : fieldOpcode (0b0101#4 ++ dr ++ sr1 ++ 0b0#1 ++ ign ++ sr2) = 0b0101#4 := by
    apply BitVec.eq_of_toNat_eq
    rw [fieldOpcode, toNat_extract, h]
    simp
    try omega
  have h1 : fieldDr (0b0101#4 ++ dr ++ sr1 ++ 0b0#1 ++ ign ++ sr2) = dr := by
    apply BitVec.eq_of_toNat_eq
    rw [fieldDr, toNat_extract, h]
    simp
    try omega
  have h2 : fieldBase (0b0101#4 ++ dr ++ sr1 ++ 0b0#1 ++ ign ++ sr2) = sr1 := by
    apply BitVec.eq_of_toNat_eq
    rw [fieldBase, toNat_extract, h]
    simp
    try omega
  have h3 : fieldMode (0b0101#4 ++ dr ++ sr1 ++ 0b0#1 ++ ign ++ sr2) = 0b0#1 := by
    apply BitVec.eq_of_toNat_eq
    rw [fieldMode, toNat_extract, h]
    simp
    try omega
  have h4 : fieldSr2 (0b0101#4 ++ dr ++ sr1 ++ 0b0#1 ++ ign ++ sr2) = sr2 := by
    apply BitVec.eq_of_toNat_eq
    rw [fieldSr2, toNat_extract, h]
    simp
    try omega
  generalize ((0b0101#4 ++ dr ++ sr1 ++ 0b0#1 ++ ign ++ sr2) : Word) = w at *
  simp [decode, h0, h1, h2, h3, h4]

theorem decode_andImm (c : Config) (dr : BitVec 3) (sr1 : BitVec 3) (imm5 : BitVec 5) :
    decode c (0b0101#4 ++ dr ++ sr1 ++ 0b1#1 ++ imm5) = .andImm dr sr1 imm5 := by
  have h := layout_4_3_3_1_5 0b0101#4 dr sr1 0b1#1 imm5
  have := dr.isLt
  have := sr1.isLt
  have := imm5.isLt
  have h0 : fieldOpcode (0b0101#4 ++ dr ++ sr1 ++ 0b1#1 ++ imm5) = 0b0101#4 := by
    apply BitVec.eq_of_toNat_eq
    rw [fieldOpcode, toNat_extract, h]
    simp
    try omega
  have h1 : fieldDr (0b0101#4 ++ dr ++ sr1 ++ 0b1#1 ++ imm5) = dr := by
    apply BitVec.eq_of_toNat_eq
    rw [fieldDr, toNat_extract, h]
    simp
    try omega
  have h2 : fieldBase (0b0101#4 ++ dr ++ sr1 ++ 0b1#1 ++ imm5) = sr1 := by
    apply BitVec.eq_of_toNat_eq
    rw [fieldBase, toNat_extract, h]
    simp
    try omega
  have h3 : fieldMode (0b0101#4 ++ dr ++ sr1 ++ 0b1#1 ++ imm5) = 0b1#1 := by
    apply BitVec.eq_of_toNat_eq
    rw [fieldMode, toNat_extract, h]
    simp
    try omega
  have h4 : fieldImm5 (0b0101#4 ++ dr ++ sr1 ++ 0b1#1 ++ imm5) = imm5 := by
    apply BitVec.eq_of_toNat_eq
    rw [fieldImm5, toNat_extract, h]
    simp
    try omega
  generalize ((0b0101#4 ++ dr ++ sr1 ++ 0b1#1 ++ imm5) : Word) = w at *
  simp [decode, h0, h1, h2, h3, h4]

theorem decode_ldr (c : Config) (dr : BitVec 3) (base : BitVec 3) (off6 : BitVec 6) :
    decode c (0b0110#4 ++ dr ++ base ++ off6) = .ldr dr base off6 := by
  have h := layout_4_3_3_6 0b0110#4 dr base off6
  have := dr.isLt
  have := base.isLt
  have := off6.isLt
  have h0 : fieldOpcode (0b0110#4 ++ dr ++ base ++ off6) = 0b0110#4 := by
    apply BitVec.eq_of_toNat_eq
    rw [fieldOpcode, toNat_extract, h]
    simp
    try omega
  have h1 : fieldDr (0b0110#4 ++ dr ++ base ++ off6) = dr := by
    apply BitVec.eq_of_toNat_eq
    rw [fieldDr, toNat_extract, h]
    simp
    try omega
  have h2 : fieldBase (0b0110#4 ++ dr ++ base ++ off6) = base := by
    apply BitVec.eq_of_toNat_eq
    rw [fieldBase, toNat_extract, h]
    simp
    try omega
  have h3 : fieldOff6 (0b0110#4 ++ dr ++ base ++ off6) = off6 := by
    apply BitVec.eq_of_toNat_eq
    rw [fieldOff6, toNat_extract, h]
    simp
    try omega
  generalize ((0b0110#4 ++ dr ++ base ++ off6) : Word) = w at *
  simp [decode, h0, h1, h2, h3]

theorem decode_str (c : Config) (sr : BitVec 3) (base : BitVec 3) (off6 : BitVec 6) :
    decode c (0b0111#4 ++ sr ++ base ++ off6) = .str sr base off6 := by
  have h := layout_4_3_3_6 0b0111#4 sr base off6
  have := sr.isLt
  have := base.isLt
  have := off6.isLt
  have h0 : fieldOpcode (0b0111#4 ++ sr ++ base ++ off6) = 0b0111#4 := by
    apply BitVec.eq_of_toNat_eq
    rw [fieldOpcode, toNat_extract, h]
    simp
    try omega
  have h1 : fieldDr (0b0111#4 ++ sr ++ base ++ off6) = sr := by
    apply BitVec.eq_of_toNat_eq
    rw [fieldDr, toNat_extract, h]
    simp
    try omega
  have h2 : fieldBase (0b0111#4 ++ sr ++ base ++ off6) = base := by
    apply BitVec.eq_of_toNat_eq
    rw [fieldBase, toNat_extract, h]
    simp
    try omega
  have h3 : fieldOff6 (0b0111#4 ++ sr ++ base ++ off6) = off6 := by
    apply BitVec.eq_of_toNat_eq
    rw [fieldOff6, toNat_extract, h]
    simp
    try omega
  generalize ((0b0111#4 ++ sr ++ base ++ off6) : Word) = w at *
  simp [decode, h0, h1, h2, h3]

theorem decode_rsv1000 (c : Config) (low : BitVec 12) :
    decode c (0b1000#4 ++ low) = .rsv1000 low := by
  have h := layout_4_12 0b1000#4 low
  have := low.isLt
  have h0 : fieldOpcode (0b1000#4 ++ low) = 0b1000#4 := by
    apply BitVec.eq_of_toNat_eq
    rw [fieldOpcode, toNat_extract, h]
    simp
    try omega
  have h1 : fieldLow12 (0b1000#4 ++ low) = low := by
    apply BitVec.eq_of_toNat_eq
    rw [fieldLow12, toNat_extract, h]
    simp
    try omega
  generalize ((0b1000#4 ++ low) : Word) = w at *
  simp [decode, h0, h1]

theorem decode_not (c : Config) (dr : BitVec 3) (sr : BitVec 3) (ign : BitVec 6) :
    decode c (0b1001#4 ++ dr ++ sr ++ ign) = .not dr sr := by
  have h := layout_4_3_3_6 0b1001#4 dr sr ign
  have := dr.isLt
  have := sr.isLt
  have := ign.isLt
  have h0 : fieldOpcode (0b1001#4 ++ dr ++ sr ++ ign) = 0b1001#4 := by
    apply BitVec.eq_of_toNat_eq
    rw [fieldOpcode, toNat_extract, h]
    simp
    try omega
  have h1 : fieldDr (0b1001#4 ++ dr ++ sr ++ ign) = dr := by
    apply BitVec.eq_of_toNat_eq
    rw [fieldDr, toNat_extract, h]
    simp
    try omega
  have h2 : fieldBase (0b1001#4 ++ dr ++ sr ++ ign) = sr := by
    apply BitVec.eq_of_toNat_eq
    rw [fieldBase, toNat_extract, h]
    simp
    try omega
  generalize ((0b1001#4 ++ dr ++ sr ++ ign) : Word) = w at *
  simp [decode, h0, h1, h2]

theorem decode_ldi (c : Config) (dr : BitVec 3) (off9 : BitVec 9) :
    decode c (0b1010#4 ++ dr ++ off9) = .ldi dr off9 := by
  have h := layout_4_3_9 0b1010#4 dr off9
  have := dr.isLt
  have := off9.isLt
  have h0 : fieldOpcode (0b1010#4 ++ dr ++ off9) = 0b1010#4 := by
    apply BitVec.eq_of_toNat_eq
    rw [fieldOpcode, toNat_extract, h]
    simp
    try omega
  have h1 : fieldDr (0b1010#4 ++ dr ++ off9) = dr := by
    apply BitVec.eq_of_toNat_eq
    rw [fieldDr, toNat_extract, h]
    simp
    try omega
  have h2 : fieldOff9 (0b1010#4 ++ dr ++ off9) = off9 := by
    apply BitVec.eq_of_toNat_eq
    rw [fieldOff9, toNat_extract, h]
    simp
    try omega
  generalize ((0b1010#4 ++ dr ++ off9) : Word) = w at *
  simp [decode, h0, h1, h2]

theorem decode_sti (c : Config) (sr : BitVec 3) (off9 : BitVec 9) :
    decode c (0b1011#4 ++ sr ++ off9) = .sti sr off9 := by
  have h := layout_4_3_9 0b1011#4 sr off9
  have := sr.isLt
  have := off9.isLt
  have h0 : fieldOpcode (0b1011#4 ++ sr ++ off9) = 0b1011#4 := by
    apply BitVec.eq_of_toNat_eq
    rw [fieldOpcode, toNat_extract, h]
    simp
    try omega
  have h1 : fieldDr (0b1011#4 ++ sr ++ off9) = sr := by
    apply BitVec.eq_of_toNat_eq
    rw [fieldDr, toNat_extract, h]
    simp
    try omega
  have h2 : fieldOff9 (0b1011#4 ++ sr ++ off9) = off9 := by
    apply BitVec.eq_of_toNat_eq
    rw [fieldOff9, toNat_extract, h]
    simp
    try omega
  generalize ((0b1011#4 ++ sr ++ off9) : Word) = w at *
  simp [decode, h0, h1, h2]

theorem decode_jmp (c : Config) (ign : BitVec 3) (base : BitVec 3) (ign2 : BitVec 6) :
    decode c (0b1100#4 ++ ign ++ base ++ ign2) = .jmp base := by
  have h := layout_4_3_3_6 0b1100#4 ign base ign2
  have := ign.isLt
  have := base.isLt
  have := ign2.isLt
  have h0 : fieldOpcode (0b1100#4 ++ ign ++ base ++ ign2) = 0b1100#4 := by
    apply BitVec.eq_of_toNat_eq
    rw [fieldOpcode, toNat_extract, h]
    simp
    try omega
  have h1 : fieldBase (0b1100#4 ++ ign ++ base ++ ign2) = base := by
    apply BitVec.eq_of_toNat_eq
    rw [fieldBase, toNat_extract, h]
    simp
    try omega
  generalize ((0b1100#4 ++ ign ++ base ++ ign2) : Word) = w at *
  simp [decode, h0, h1]

theorem decode_rsv1101 (c : Config) (low : BitVec 12) :
    decode c (0b1101#4 ++ low) = .rsv1101 low := by
  have h := layout_4_12 0b1101#4 low
  have := low.isLt
  have h0 : fieldOpcode (0b1101#4 ++ low) = 0b1101#4 := by
    apply BitVec.eq_of_toNat_eq
    rw [fieldOpcode, toNat_extract, h]
    simp
    try omega
  have h1 : fieldLow12 (0b1101#4 ++ low) = low := by
    apply BitVec.eq_of_toNat_eq
    rw [fieldLow12, toNat_extract, h]
    simp
    try omega
  generalize ((0b1101#4 ++ low) : Word) = w at *
  simp [decode, h0, h1]

theorem decode_lea (c : Config) (dr : BitVec 3) (off9 : BitVec 9) :
    decode c (0b1110#4 ++ dr ++ off9) = .lea dr off9 := by
  have h := layout_4_3_9 0b1110#4 dr off9
  have := dr.isLt
  have := off9.isLt
  have h0 : fieldOpcode (0b1110#4 ++ dr ++ off9) = 0b1110#4 := by
    apply BitVec.eq_of_toNat_eq
    rw [fieldOpcode, toNat_extract, h]
    simp
    try omega
  have h1 : fieldDr (0b1110#4 ++ dr ++ off9) = dr := by
    apply BitVec.eq_of_toNat_eq
    rw [fieldDr, toNat_extract, h]
    simp
    try omega
  have h2 : fieldOff9 (0b1110#4 ++ dr ++ off9) = off9 := by
    apply BitVec.eq_of_toNat_eq
    rw [fieldOff9, toNat_extract, h]
    simp
    try omega
  generalize ((0b1110#4 ++ dr ++ off9) : Word) = w at *
  simp [decode, h0, h1, h2]

/-- Every TRAP Word goes to the routine rows and the last row by its vector alone (R97). -/
theorem decode_trapWord (c : Config) (ign : BitVec 4) (vec : BitVec 8) :
    decode c (0b1111#4 ++ ign ++ vec) = decodeTrap c ign vec := by
  have h := layout_4_4_8 0b1111#4 ign vec
  have := ign.isLt
  have := vec.isLt
  have h0 : fieldOpcode (0b1111#4 ++ ign ++ vec) = 0b1111#4 := by
    apply BitVec.eq_of_toNat_eq
    rw [fieldOpcode, toNat_extract, h]
    simp
    omega
  have h1 : fieldTrapIgn (0b1111#4 ++ ign ++ vec) = ign := by
    apply BitVec.eq_of_toNat_eq
    rw [fieldTrapIgn, toNat_extract, h]
    simp
    omega
  have h2 : fieldVec (0b1111#4 ++ ign ++ vec) = vec := by
    apply BitVec.eq_of_toNat_eq
    rw [fieldVec, toNat_extract, h]
    simp
    omega
  simp [decode, h0, h1, h2]

end Sys2Proof
end

