-- ==== Sys2Proof/Laws/PerInstr.lean ====
section
/-! SUPPORT. The family RoundTrip: what the encoder writes for an instruction, the decoder reads back as it, per constructor. -/

namespace Sys2Proof

/-- The last row's Word with a vector that is none of the six (R97). -/
theorem decodeTrap_other (c : Config) (ign : BitVec 4) (vec : BitVec 8) (h : vec ∉ c.vectors) :
    decodeTrap c ign vec = .trap ign vec := by
  simp only [Config.vectors, List.mem_cons, List.not_mem_nil, or_false, not_or] at h
  simp [decodeTrap, h]

/-- In a configuration that meets R7 the six vectors are pairwise distinct. -/
theorem vectors_nodup (c : Config) (h : c.wf = true) : c.vectors.Nodup := by
  simp only [Config.wf, Bool.and_eq_true, decide_eq_true_eq] at h
  exact h.1.1.2

end Sys2Proof

/-- The statement of the family RoundTrip. -/
def Sys2Proof.Laws.RoundTrip.Statement (i : Sys2Proof.Instr) : Prop :=
  ∀ c : Sys2Proof.Config, c.wf = true → i.wf c = true → Sys2Proof.decode c (Sys2Proof.encode c i) = i

namespace Sys2Proof

theorem Laws.RoundTrip.br (nzp : BitVec 3) (off9 : BitVec 9) : Laws.RoundTrip.Statement (.br nzp off9) :=
  fun c _ _ => decode_br c nzp off9

theorem Laws.RoundTrip.addReg (dr sr1 sr2 : Reg) : Laws.RoundTrip.Statement (.addReg dr sr1 sr2) :=
  fun c _ _ => decode_addReg c dr sr1 0b00#2 sr2

theorem Laws.RoundTrip.addImm (dr sr1 : Reg) (imm5 : BitVec 5) : Laws.RoundTrip.Statement (.addImm dr sr1 imm5) :=
  fun c _ _ => decode_addImm c dr sr1 imm5

theorem Laws.RoundTrip.ld (dr : Reg) (off9 : BitVec 9) : Laws.RoundTrip.Statement (.ld dr off9) :=
  fun c _ _ => decode_ld c dr off9

theorem Laws.RoundTrip.st (sr : Reg) (off9 : BitVec 9) : Laws.RoundTrip.Statement (.st sr off9) :=
  fun c _ _ => decode_st c sr off9

theorem Laws.RoundTrip.jsr (off11 : BitVec 11) : Laws.RoundTrip.Statement (.jsr off11) :=
  fun c _ _ => decode_jsr c off11

theorem Laws.RoundTrip.jsrr (base : Reg) : Laws.RoundTrip.Statement (.jsrr base) :=
  fun c _ _ => decode_jsrr c 0b00#2 base 0b000000#6

theorem Laws.RoundTrip.andReg (dr sr1 sr2 : Reg) : Laws.RoundTrip.Statement (.andReg dr sr1 sr2) :=
  fun c _ _ => decode_andReg c dr sr1 0b00#2 sr2

theorem Laws.RoundTrip.andImm (dr sr1 : Reg) (imm5 : BitVec 5) : Laws.RoundTrip.Statement (.andImm dr sr1 imm5) :=
  fun c _ _ => decode_andImm c dr sr1 imm5

theorem Laws.RoundTrip.ldr (dr base : Reg) (off6 : BitVec 6) : Laws.RoundTrip.Statement (.ldr dr base off6) :=
  fun c _ _ => decode_ldr c dr base off6

theorem Laws.RoundTrip.str (sr base : Reg) (off6 : BitVec 6) : Laws.RoundTrip.Statement (.str sr base off6) :=
  fun c _ _ => decode_str c sr base off6

theorem Laws.RoundTrip.rsv1000 (low : BitVec 12) : Laws.RoundTrip.Statement (.rsv1000 low) :=
  fun c _ _ => decode_rsv1000 c low

theorem Laws.RoundTrip.not (dr sr : Reg) : Laws.RoundTrip.Statement (.not dr sr) :=
  fun c _ _ => decode_not c dr sr 0b000000#6

theorem Laws.RoundTrip.ldi (dr : Reg) (off9 : BitVec 9) : Laws.RoundTrip.Statement (.ldi dr off9) :=
  fun c _ _ => decode_ldi c dr off9

theorem Laws.RoundTrip.sti (sr : Reg) (off9 : BitVec 9) : Laws.RoundTrip.Statement (.sti sr off9) :=
  fun c _ _ => decode_sti c sr off9

theorem Laws.RoundTrip.jmp (base : Reg) : Laws.RoundTrip.Statement (.jmp base) :=
  fun c _ _ => decode_jmp c 0b000#3 base 0b000000#6

theorem Laws.RoundTrip.rsv1101 (low : BitVec 12) : Laws.RoundTrip.Statement (.rsv1101 low) :=
  fun c _ _ => decode_rsv1101 c low

theorem Laws.RoundTrip.lea (dr : Reg) (off9 : BitVec 9) : Laws.RoundTrip.Statement (.lea dr off9) :=
  fun c _ _ => decode_lea c dr off9

theorem Laws.RoundTrip.getc : Laws.RoundTrip.Statement .getc := by
  intro c _ _
  rw [encode, decode_trapWord]
  simp [decodeTrap]

theorem Laws.RoundTrip.out : Laws.RoundTrip.Statement .out := by
  intro c hc _
  have h := vectors_nodup c hc
  simp only [Config.vectors, List.nodup_cons, List.mem_cons, List.not_mem_nil, or_false, not_or] at h
  rw [encode, decode_trapWord]
  simp [decodeTrap, eq_comm, h]

theorem Laws.RoundTrip.puts : Laws.RoundTrip.Statement .puts := by
  intro c hc _
  have h := vectors_nodup c hc
  simp only [Config.vectors, List.nodup_cons, List.mem_cons, List.not_mem_nil, or_false, not_or] at h
  rw [encode, decode_trapWord]
  simp [decodeTrap, eq_comm, h]

theorem Laws.RoundTrip.inp : Laws.RoundTrip.Statement .inp := by
  intro c hc _
  have h := vectors_nodup c hc
  simp only [Config.vectors, List.nodup_cons, List.mem_cons, List.not_mem_nil, or_false, not_or] at h
  rw [encode, decode_trapWord]
  simp [decodeTrap, eq_comm, h]

theorem Laws.RoundTrip.putsp : Laws.RoundTrip.Statement .putsp := by
  intro c hc _
  have h := vectors_nodup c hc
  simp only [Config.vectors, List.nodup_cons, List.mem_cons, List.not_mem_nil, or_false, not_or] at h
  rw [encode, decode_trapWord]
  simp [decodeTrap, eq_comm, h]

theorem Laws.RoundTrip.halt : Laws.RoundTrip.Statement .halt := by
  intro c hc _
  have h := vectors_nodup c hc
  simp only [Config.vectors, List.nodup_cons, List.mem_cons, List.not_mem_nil, or_false, not_or] at h
  rw [encode, decode_trapWord]
  simp [decodeTrap, eq_comm, h]

theorem Laws.RoundTrip.trap (ign : BitVec 4) (vec : BitVec 8) : Laws.RoundTrip.Statement (.trap ign vec) := by
  intro c _ hi
  rw [encode, decode_trapWord]
  exact decodeTrap_other c ign vec (by simpa [Instr.wf] using hi)

end Sys2Proof
end

