-- ==== Sys2Proof/Laws/Trap.lean ====
section
/-! SUPPORT. What the trap dispatch and the six routines can do, said once each: the two console reads by whether a byte is
pending, the string scan against the spec's loop, and what a scan keeps. -/

namespace Sys2Proof.Machine

/-! The look at the input queue commutes with what the routines do before it. -/

/-- The link write does not touch the console. -/
theorem hostTurn_link (s : State) : hostTurn (link s) = link (hostTurn s) := rfl

/-- A flush does not touch the input side. -/
theorem hostTurn_consoleFlush (s : State) : hostTurn (consoleFlush s) = consoleFlush (hostTurn s) := rfl

/-- Writing bytes does not touch the input side. -/
theorem hostTurn_consolePuts (bs : List Byte) (s : State) : hostTurn (consolePuts bs s) = consolePuts bs (hostTurn s) := by
  simp only [consolePuts_eq]; rfl

/-- Which routine is under way does not touch the console. -/
theorem hostTurn_setBusy (s : State) (b : Busy) : hostTurn (s.setBusy b) = (hostTurn s).setBusy b := rfl

/-- The routine under way, named again. -/
theorem setBusy_same (s : State) (b : Busy) (h : s.busy = b) : s.setBusy b = s := by
  subst h; rfl

/-! The console reads (R39, R173, R176). -/

/-- GETC with a byte pending (R173). -/
theorem getcRead_some (s : State) (b : Byte) (rest : List Byte) (h : (hostTurn s).kq = b :: rest) :
    getcRead s = writeResult 0#3 (zext8 b) (((hostTurn s).setKq rest).setBusy .idle) := by
  unfold getcRead
  rw [takeByte_cons _ _ _ h]

/-- GETC with no byte pending keeps waiting (R39). -/
theorem getcRead_none (s : State) (h : (hostTurn s).kq = []) : getcRead s = (hostTurn s).setBusy .getc := by
  unfold getcRead
  rw [(takeByte_eq_none _).mpr h]

/-- IN with a byte pending (R176). -/
theorem inRead_some (s : State) (b : Byte) (rest : List Byte) (h : (hostTurn s).kq = b :: rest) :
    inRead s = writeResult 0#3 (zext8 b) ((consoleFlush (consolePut b ((hostTurn s).setKq rest))).setBusy .idle) := by
  unfold inRead
  rw [takeByte_cons _ _ _ h]

/-- IN with no byte pending keeps waiting (R39). -/
theorem inRead_none (s : State) (h : (hostTurn s).kq = []) : inRead s = (hostTurn s).setBusy .inp := by
  unfold inRead
  rw [(takeByte_eq_none _).mpr h]

/-- The flag of a Word is one of the three flag values (R119). -/
theorem flagOf_mem (c : Config) (v : Word) : flagOf c v ∈ c.flags := by
  unfold flagOf Config.flags
  split
  · simp
  · split <;> simp

/-- A zero-extended byte is never NEGATIVE (R118, R173). -/
theorem flagOf_zext8 (c : Config) (b : Byte) (h : c.wf = true) : flagOf c (zext8 b) ≠ c.flagN := by
  have hf : c.flags.Nodup := by
    simp only [Config.wf, Bool.and_eq_true, decide_eq_true_eq] at h; exact h.1.2
  simp [Config.flags] at hf
  have hm : (zext8 b).msb = false := by
    revert b; decide
  unfold flagOf
  rw [hm]
  split
  · exact hf.2
  · simpa using hf.1.2

/-! The dispatch (R171, R179). -/

/-- The six vectors select their six rows, whatever the ignored bits (R97, R171). -/
theorem decode_vec (c : Config) (ign : BitVec 4) (h : c.wf = true) :
    decode c (0b1111#4 ++ ign ++ c.tvGetc) = .getc ∧ decode c (0b1111#4 ++ ign ++ c.tvOut) = .out ∧
    decode c (0b1111#4 ++ ign ++ c.tvPuts) = .puts ∧ decode c (0b1111#4 ++ ign ++ c.tvIn) = .inp ∧
    decode c (0b1111#4 ++ ign ++ c.tvPutsp) = .putsp ∧ decode c (0b1111#4 ++ ign ++ c.tvHalt) = .halt := by
  have h := vectors_nodup c h
  simp only [Config.vectors, List.nodup_cons, List.mem_cons, List.not_mem_nil, or_false, not_or] at h
  simp [decode_trapWord, decodeTrap, eq_comm, h]

/-- An undefined vector raises UnknownTrapVector (R179). -/
theorem dispatch_undefined (v : BitVec 8) (w : Word) (s : State) (h : v ∉ s.cfg.vectors) :
    dispatchTrap v w s = raiseFatal .unknownTrapVector w s := by
  simp only [Config.vectors, List.mem_cons, List.not_mem_nil, or_false, not_or] at h
  simp [dispatchTrap, h]

/-! The string scan against the loop of R175 and R177. -/

/-- The poll does not look at the routine under way. -/
theorem keyboardPoll_setBusy (s : State) (b : Busy) : keyboardPoll (s.setBusy b) = (keyboardPoll s).setBusy b := by
  have e := hostTurn_setBusy s b
  rcases keyboardPoll_cases s with ⟨c, l, h, e2⟩ | ⟨h, e2⟩
  · rw [e2, keyboardPoll_ready (s.setBusy b) c l (by rw [e]; simpa using h), e]; rfl
  · rw [e2, keyboardPoll_clear (s.setBusy b) (by rw [e]; simpa using h), e]; rfl

/-- A read does not look at the routine under way. -/
theorem memRead_setBusy (s : State) (b : Busy) (a : Word) :
    memRead (s.setBusy b) a = ((memRead s a).1, (memRead s a).2.setBusy b) := by
  by_cases h : a = s.cfg.kbsr
  · subst h
    have := memRead_kbsr (s.setBusy b)
    rw [keyboardPoll_setBusy] at this
    rw [memRead_kbsr]; exact this
  · rw [memRead_other s a h]; exact memRead_other (s.setBusy b) a h

/-- Nor does the loop. -/
theorem stringLoop_setBusy {f : Word → List Byte} {n : Nat} {a : Word} {s t : State} (b : Busy)
    (h : StringLoop f n a s t) : StringLoop f n a (s.setBusy b) (t.setBusy b) := by
  induction h with
  | exit a s h =>
    have := StringLoop.exit (bytes := f) a (s.setBusy b) (by rw [memRead_setBusy]; exact h)
    rw [memRead_setBusy] at this
    exact this
  | again n a s t h rest ih =>
    apply StringLoop.again
    · rw [memRead_setBusy]; exact h
    · rw [memRead_setBusy]
      have e : ∀ (l : List Byte) (u : State), consolePuts l (u.setBusy b) = (consolePuts l u).setBusy b := by
        intro l u; simp only [consolePuts_eq]; rfl
      simp only [e]; exact ih

/-- A loop that ends within the Words scanned. -/
theorem scan_le {f : Word → List Byte} {uw : Word → Busy} {n : Nat} {a : Word} {s t : State}
    (h : StringLoop f n a s t) : ∀ m, n ≤ m → scanString f uw m a s = t.setBusy .idle := by
  induction h with
  | exit a s h =>
    intro m hm
    obtain ⟨m', rfl⟩ : ∃ m', m = m' + 1 := ⟨m - 1, by omega⟩
    simp only [scanString, h, if_true]
  | again n a s t h rest ih =>
    intro m hm
    obtain ⟨m', rfl⟩ : ∃ m', m = m' + 1 := ⟨m - 1, by omega⟩
    simp only [scanString, if_neg h]
    exact ih m' (by omega)

/-- A loop that goes on after the Words scanned. -/
theorem scan_lt {f : Word → List Byte} {uw : Word → Busy} (m : Nat) : ∀ {n : Nat} {a : Word} {s t : State},
    StringLoop f n a s t → m < n → ∃ a' s', scanString f uw m a s = s'.setBusy (uw a') ∧ StringLoop f (n - m) a' s' t := by
  induction m with
  | zero => intro n a s t h _; exact ⟨a, s, rfl, h⟩
  | succ m ih =>
    intro n a s t h hlt
    cases h with
    | exit _ _ h => omega
    | again n _ _ _ h rest =>
      obtain ⟨a', s', e, l⟩ := ih rest (by omega)
      refine ⟨a', s', ?_, ?_⟩
      · simp only [scanString, if_neg h]; exact e
      · have : n + 1 - (m + 1) = n - m := by omega
        rw [this]; exact l

/-- A loop that never ends, after any number of Words scanned: the routine is under way, the loop from there never ends, and
each Word has written at least one byte (R178 (c)). -/
theorem scan_endless {f : Word → List Byte} (uw : Word → Busy) (hf : ∀ w, f w ≠ []) (m : Nat) : ∀ (a : Word) (s : State),
    (∀ n t, ¬ StringLoop f n a s t) → ∃ a' s', scanString f uw m a s = s'.setBusy (uw a') ∧
      (∀ n t, ¬ StringLoop f n a' s' t) ∧ s.outq <+: s'.outq ∧ s.outq.length + m ≤ s'.outq.length := by
  induction m with
  | zero => intro a s h; exact ⟨a, s, rfl, h, List.prefix_rfl, Nat.le_refl _⟩
  | succ m ih =>
    intro a s h
    have hw : (memRead s a).1 ≠ 0x0000#16 := fun e => h _ _ (.exit a s e)
    obtain ⟨a', s', e, h', hp, hl⟩ := ih (a + 1#16) (consolePuts (f (memRead s a).1) (memRead s a).2)
      (fun n t l => h _ _ (.again n a s t hw l))
    have hpos := List.length_pos_iff.mpr (hf (memRead s a).1)
    refine ⟨a', s', by simp only [scanString, if_neg hw]; exact e, h', ?_, ?_⟩
    · simp only [consolePuts_outq, memRead_outq] at hp
      exact (List.prefix_append _ _).trans hp
    · simp only [consolePuts_outq, memRead_outq, List.length_append] at hl
      omega

/-- A string that stands in memory is a finite loop that writes its bytes (R175, R177). -/
theorem stringAt_loop (f : Word → List Byte) (ws : List Word) : ∀ (a : Word) (s : State), (∀ w ∈ ws, w ≠ 0#16) →
    StringAt (ws ++ [0#16]) a s →
    StringLoop f (ws.length + 1) a s (consoleFlush (consolePuts (ws.flatMap f) s)) := by
  induction ws with
  | nil =>
    intro a s _ h
    simp only [List.nil_append, StringAt] at h
    have e := memRead_other s a h.1
    have := StringLoop.exit (bytes := f) a s (by rw [e]; exact h.2.1)
    rw [e] at this
    exact this
  | cons w ws ih =>
    intro a s hnz h
    simp only [List.cons_append, StringAt] at h
    have e := memRead_other s a h.1
    have hat : ∀ (l : List Word) (b : Word) (p : List Byte), StringAt l b s → StringAt l b (consolePuts p s) := by
      intro l
      induction l with
      | nil => intro _ _ _; trivial
      | cons x l ih2 =>
        intro b p hh
        simp only [StringAt] at hh ⊢
        exact ⟨by simpa using hh.1, by simpa using hh.2.1, ih2 _ _ hh.2.2⟩
    have := ih (a + 1#16) (consolePuts (f w) s) (fun x hx => hnz x (by simp [hx])) (hat _ _ _ h.2.2)
    apply StringLoop.again
    · rw [e]; simpa [h.2.1] using hnz w (by simp)
    · rw [e]
      simp only [h.2.1]
      have e3 : consoleFlush (consolePuts (List.flatMap f ws) (consolePuts (f w) s)) = consoleFlush (consolePuts (List.flatMap f (w :: ws)) s) := by
        simp [consolePuts_eq]
      rw [← e3]; exact this

/-- What a scan keeps: registers, pc, flags, parameters, and memory away from the device registers (R181). -/
theorem scan_keeps (f : Word → List Byte) (uw : Word → Busy) (n : Nat) : ∀ a s,
    (scanString f uw n a s).x = s.x ∧ (scanString f uw n a s).pc = s.pc ∧ (scanString f uw n a s).cond = s.cond ∧
    (scanString f uw n a s).cfg = s.cfg ∧
    KeepsMemoryBut [s.cfg.kbsr, s.cfg.kbdr] s (scanString f uw n a s) := by
  induction n with
  | zero => intro a s; exact ⟨rfl, rfl, rfl, rfl, fun _ _ => rfl⟩
  | succ n ih =>
    intro a s
    simp only [scanString]
    split
    · refine ⟨by simp, by simp, by simp, by simp, ?_⟩
      intro b hb; simp at hb; simp; exact memRead_peek_other s a b hb.1 hb.2
    · obtain ⟨h1, h2, h3, h4, h5⟩ := ih (a + 1#16) (consolePuts (f (memRead s a).1) (memRead s a).2)
      refine ⟨by rw [h1]; simp, by rw [h2]; simp, by rw [h3]; simp, by rw [h4]; simp, ?_⟩
      intro b hb
      rw [h5 b (by simpa using hb)]
      simp at hb; simp; exact memRead_peek_other s a b hb.1 hb.2

end Sys2Proof.Machine
end

