-- ==== Sys2Proof/Laws/Words.lean ====
section
/-! SUPPORT. Every Word has one of the layouts of R83, and which of its bits are ignored (R90). -/

namespace Sys2Proof

/-- Every Word has one of the layouts of R83 (R81, R94). -/
inductive Layout : Word → Prop where
  | br (nzp : BitVec 3) (off9 : BitVec 9) : Layout (0b0000#4 ++ nzp ++ off9)
  | addReg (dr : BitVec 3) (sr1 : BitVec 3) (ign : BitVec 2) (sr2 : BitVec 3) : Layout (0b0001#4 ++ dr ++ sr1 ++ 0b0#1 ++ ign ++ sr2)
  | addImm (dr : BitVec 3) (sr1 : BitVec 3) (imm5 : BitVec 5) : Layout (0b0001#4 ++ dr ++ sr1 ++ 0b1#1 ++ imm5)
  | ld (dr : BitVec 3) (off9 : BitVec 9) : Layout (0b0010#4 ++ dr ++ off9)
  | st (sr : BitVec 3) (off9 : BitVec 9) : Layout (0b0011#4 ++ sr ++ off9)
  | jsr (off11 : BitVec 11) : Layout (0b0100#4 ++ 0b1#1 ++ off11)
  | jsrr (ign : BitVec 2) (base : BitVec 3) (ign2 : BitVec 6) : Layout (0b0100#4 ++ 0b0#1 ++ ign ++ base ++ ign2)
  | andReg (dr : BitVec 3) (sr1 : BitVec 3) (ign : BitVec 2) (sr2 : BitVec 3) : Layout (0b0101#4 ++ dr ++ sr1 ++ 0b0#1 ++ ign ++ sr2)
  | andImm (dr : BitVec 3) (sr1 : BitVec 3) (imm5 : BitVec 5) : Layout (0b0101#4 ++ dr ++ sr1 ++ 0b1#1 ++ imm5)
  | ldr (dr : BitVec 3) (base : BitVec 3) (off6 : BitVec 6) : Layout (0b0110#4 ++ dr ++ base ++ off6)
  | str (sr : BitVec 3) (base : BitVec 3) (off6 : BitVec 6) : Layout (0b0111#4 ++ sr ++ base ++ off6)
  | rsv1000 (low : BitVec 12) : Layout (0b1000#4 ++ low)
  | not (dr : BitVec 3) (sr : BitVec 3) (ign : BitVec 6) : Layout (0b1001#4 ++ dr ++ sr ++ ign)
  | ldi (dr : BitVec 3) (off9 : BitVec 9) : Layout (0b1010#4 ++ dr ++ off9)
  | sti (sr : BitVec 3) (off9 : BitVec 9) : Layout (0b1011#4 ++ sr ++ off9)
  | jmp (ign : BitVec 3) (base : BitVec 3) (ign2 : BitVec 6) : Layout (0b1100#4 ++ ign ++ base ++ ign2)
  | rsv1101 (low : BitVec 12) : Layout (0b1101#4 ++ low)
  | lea (dr : BitVec 3) (off9 : BitVec 9) : Layout (0b1110#4 ++ dr ++ off9)
  | trap (ign : BitVec 4) (vec : BitVec 8) : Layout (0b1111#4 ++ ign ++ vec)

/-! A Word cut into the fields of a layout. -/

theorem cut_4_3_9 (w : Word) :
    w = w.extractLsb' 12 4 ++ w.extractLsb' 9 3 ++ w.extractLsb' 0 9 := by
  apply BitVec.eq_of_toNat_eq
  rw [layout_4_3_9]
  simp only [toNat_extract]
  have := w.isLt
  omega

theorem cut_4_3_3_1_2_3 (w : Word) :
    w = w.extractLsb' 12 4 ++ w.extractLsb' 9 3 ++ w.extractLsb' 6 3 ++ w.extractLsb' 5 1 ++ w.extractLsb' 3 2 ++ w.extractLsb' 0 3 := by
  apply BitVec.eq_of_toNat_eq
  rw [layout_4_3_3_1_2_3]
  simp only [toNat_extract]
  have := w.isLt
  omega

theorem cut_4_3_3_1_5 (w : Word) :
    w = w.extractLsb' 12 4 ++ w.extractLsb' 9 3 ++ w.extractLsb' 6 3 ++ w.extractLsb' 5 1 ++ w.extractLsb' 0 5 := by
  apply BitVec.eq_of_toNat_eq
  rw [layout_4_3_3_1_5]
  simp only [toNat_extract]
  have := w.isLt
  omega

theorem cut_4_1_11 (w : Word) :
    w = w.extractLsb' 12 4 ++ w.extractLsb' 11 1 ++ w.extractLsb' 0 11 := by
  apply BitVec.eq_of_toNat_eq
  rw [layout_4_1_11]
  simp only [toNat_extract]
  have := w.isLt
  omega

theorem cut_4_1_2_3_6 (w : Word) :
    w = w.extractLsb' 12 4 ++ w.extractLsb' 11 1 ++ w.extractLsb' 9 2 ++ w.extractLsb' 6 3 ++ w.extractLsb' 0 6 := by
  apply BitVec.eq_of_toNat_eq
  rw [layout_4_1_2_3_6]
  simp only [toNat_extract]
  have := w.isLt
  omega

theorem cut_4_3_3_6 (w : Word) :
    w = w.extractLsb' 12 4 ++ w.extractLsb' 9 3 ++ w.extractLsb' 6 3 ++ w.extractLsb' 0 6 := by
  apply BitVec.eq_of_toNat_eq
  rw [layout_4_3_3_6]
  simp only [toNat_extract]
  have := w.isLt
  omega

theorem cut_4_12 (w : Word) :
    w = w.extractLsb' 12 4 ++ w.extractLsb' 0 12 := by
  apply BitVec.eq_of_toNat_eq
  rw [layout_4_12]
  simp only [toNat_extract]
  have := w.isLt
  omega

theorem cut_4_4_8 (w : Word) :
    w = w.extractLsb' 12 4 ++ w.extractLsb' 8 4 ++ w.extractLsb' 0 8 := by
  apply BitVec.eq_of_toNat_eq
  rw [layout_4_4_8]
  simp only [toNat_extract]
  have := w.isLt
  omega

/-- The layouts cover all Words (R94). -/
theorem layout_of (w : Word) : Layout w := by
  have ops : ∀ k : BitVec 4, k = 0b0000#4 ∨ k = 0b0001#4 ∨ k = 0b0010#4 ∨ k = 0b0011#4 ∨ k = 0b0100#4 ∨ k = 0b0101#4 ∨
      k = 0b0110#4 ∨ k = 0b0111#4 ∨ k = 0b1000#4 ∨ k = 0b1001#4 ∨ k = 0b1010#4 ∨ k = 0b1011#4 ∨ k = 0b1100#4 ∨
      k = 0b1101#4 ∨ k = 0b1110#4 ∨ k = 0b1111#4 := by decide
  have bit : ∀ k : BitVec 1, k = 0b0#1 ∨ k = 0b1#1 := by decide
  obtain h | h | h | h | h | h | h | h | h | h | h | h | h | h | h | h := ops (w.extractLsb' 12 4)
  · rw [cut_4_3_9 w, h]; exact .br ..
  · obtain k | k := bit (w.extractLsb' 5 1)
    · rw [cut_4_3_3_1_2_3 w, h, k]; exact .addReg ..
    · rw [cut_4_3_3_1_5 w, h, k]; exact .addImm ..
  · rw [cut_4_3_9 w, h]; exact .ld ..
  · rw [cut_4_3_9 w, h]; exact .st ..
  · obtain k | k := bit (w.extractLsb' 11 1)
    · rw [cut_4_1_2_3_6 w, h, k]; exact .jsrr ..
    · rw [cut_4_1_11 w, h, k]; exact .jsr ..
  · obtain k | k := bit (w.extractLsb' 5 1)
    · rw [cut_4_3_3_1_2_3 w, h, k]; exact .andReg ..
    · rw [cut_4_3_3_1_5 w, h, k]; exact .andImm ..
  · rw [cut_4_3_3_6 w, h]; exact .ldr ..
  · rw [cut_4_3_3_6 w, h]; exact .str ..
  · rw [cut_4_12 w, h]; exact .rsv1000 ..
  · rw [cut_4_3_3_6 w, h]; exact .not ..
  · rw [cut_4_3_9 w, h]; exact .ldi ..
  · rw [cut_4_3_9 w, h]; exact .sti ..
  · rw [cut_4_3_3_6 w, h]; exact .jmp ..
  · rw [cut_4_12 w, h]; exact .rsv1101 ..
  · rw [cut_4_3_9 w, h]; exact .lea ..
  · rw [cut_4_4_8 w, h]; exact .trap ..

/-! The ignored bits of each layout (R83, R90). -/

theorem ignored_br (nzp : BitVec 3) (off9 : BitVec 9) :
    ignoredBits (0b0000#4 ++ nzp ++ off9) = 0x0000#16 := by
  have h := layout_4_3_9 0b0000#4 nzp off9
  have := nzp.isLt
  have := off9.isLt
  have h0 : fieldOpcode (0b0000#4 ++ nzp ++ off9) = 0b0000#4 := by
    apply BitVec.eq_of_toNat_eq
    rw [fieldOpcode, toNat_extract, h]
    simp
    try omega
  clear h
  generalize ((0b0000#4 ++ nzp ++ off9) : Word) = w at *
  simp [ignoredBits, h0]

theorem ignored_addReg (dr : BitVec 3) (sr1 : BitVec 3) (ign : BitVec 2) (sr2 : BitVec 3) :
    ignoredBits (0b0001#4 ++ dr ++ sr1 ++ 0b0#1 ++ ign ++ sr2) = 0x0018#16 := by
  have h := layout_4_3_3_1_2_3 0b0001#4 dr sr1 0b0#1 ign sr2
  have := dr.isLt
  have := sr1.isLt
  have := ign.isLt
  have := sr2.isLt
  have h0 : fieldOpcode (0b0001#4 ++ dr ++ sr1 ++ 0b0#1 ++ ign ++ sr2) = 0b0001#4 := by
    apply BitVec.eq_of_toNat_eq
    rw [fieldOpcode, toNat_extract, h]
    simp
    try omega
  have h1 : fieldMode (0b0001#4 ++ dr ++ sr1 ++ 0b0#1 ++ ign ++ sr2) = 0b0#1 := by
    apply BitVec.eq_of_toNat_eq
    rw [fieldMode, toNat_extract, h]
    simp
    try omega
  clear h
  generalize ((0b0001#4 ++ dr ++ sr1 ++ 0b0#1 ++ ign ++ sr2) : Word) = w at *
  simp [ignoredBits, h0, h1]

theorem ignored_addImm (dr : BitVec 3) (sr1 : BitVec 3) (imm5 : BitVec 5) :
    ignoredBits (0b0001#4 ++ dr ++ sr1 ++ 0b1#1 ++ imm5) = 0x0000#16 := by
  have h := layout_4_3_3_1_5 0b0001#4 dr sr1 0b1#1 imm5
  have := dr.isLt
  have := sr1.isLt
  have := imm5.isLt
  have h0 : fieldOpcode (0b0001#4 ++ dr ++ sr1 ++ 0b1#1 ++ imm5) = 0b0001#4 := by
    apply BitVec.eq_of_toNat_eq
    rw [fieldOpcode, toNat_extract, h]
    simp
    try omega
  have h1 : fieldMode (0b0001#4 ++ dr ++ sr1 ++ 0b1#1 ++ imm5) = 0b1#1 := by
    apply BitVec.eq_of_toNat_eq
    rw [fieldMode, toNat_extract, h]
    simp
    try omega
  clear h
  generalize ((0b0001#4 ++ dr ++ sr1 ++ 0b1#1 ++ imm5) : Word) = w at *
  simp [ignoredBits, h0, h1]

theorem ignored_ld (dr : BitVec 3) (off9 : BitVec 9) :
    ignoredBits (0b0010#4 ++ dr ++ off9) = 0x0000#16 := by
  have h := layout_4_3_9 0b0010#4 dr off9
  have := dr.isLt
  have := off9.isLt
  have h0 : fieldOpcode (0b0010#4 ++ dr ++ off9) = 0b0010#4 := by
    apply BitVec.eq_of_toNat_eq
    rw [fieldOpcode, toNat_extract, h]
    simp
    try omega
  clear h
  generalize ((0b0010#4 ++ dr ++ off9) : Word) = w at *
  simp [ignoredBits, h0]

theorem ignored_st (sr : BitVec 3) (off9 : BitVec 9) :
    ignoredBits (0b0011#4 ++ sr ++ off9) = 0x0000#16 := by
  have h := layout_4_3_9 0b0011#4 sr off9
  have := sr.isLt
  have := off9.isLt
  have h0 : fieldOpcode (0b0011#4 ++ sr ++ off9) = 0b0011#4 := by
    apply BitVec.eq_of_toNat_eq
    rw [fieldOpcode, toNat_extract, h]
    simp
    try omega
  clear h
  generalize ((0b0011#4 ++ sr ++ off9) : Word) = w at *
  simp [ignoredBits, h0]

theorem ignored_jsr (off11 : BitVec 11) :
    ignoredBits (0b0100#4 ++ 0b1#1 ++ off11) = 0x0000#16 := by
  have h := layout_4_1_11 0b0100#4 0b1#1 off11
  have := off11.isLt
  have h0 : fieldOpcode (0b0100#4 ++ 0b1#1 ++ off11) = 0b0100#4 := by
    apply BitVec.eq_of_toNat_eq
    rw [fieldOpcode, toNat_extract, h]
    simp
    try omega
  have h1 : fieldFlag (0b0100#4 ++ 0b1#1 ++ off11) = 0b1#1 := by
    apply BitVec.eq_of_toNat_eq
    rw [fieldFlag, toNat_extract, h]
    simp
    try omega
  clear h
  generalize ((0b0100#4 ++ 0b1#1 ++ off11) : Word) = w at *
  simp [ignoredBits, h0, h1]

theorem ignored_jsrr (ign : BitVec 2) (base : BitVec 3) (ign2 : BitVec 6) :
    ignoredBits (0b0100#4 ++ 0b0#1 ++ ign ++ base ++ ign2) = 0x063F#16 := by
  have h := layout_4_1_2_3_6 0b0100#4 0b0#1 ign base ign2
  have := ign.isLt
  have := base.isLt
  have := ign2.isLt
  have h0 : fieldOpcode (0b0100#4 ++ 0b0#1 ++ ign ++ base ++ ign2) = 0b0100#4 := by
    apply BitVec.eq_of_toNat_eq
    rw [fieldOpcode, toNat_extract, h]
    simp
    try omega
  have h1 : fieldFlag (0b0100#4 ++ 0b0#1 ++ ign ++ base ++ ign2) = 0b0#1 := by
    apply BitVec.eq_of_toNat_eq
    rw [fieldFlag, toNat_extract, h]
    simp
    try omega
  clear h
  generalize ((0b0100#4 ++ 0b0#1 ++ ign ++ base ++ ign2) : Word) = w at *
  simp [ignoredBits, h0, h1]

theorem ignored_andReg (dr : BitVec 3) (sr1 : BitVec 3) (ign : BitVec 2) (sr2 : BitVec 3) :
    ignoredBits (0b0101#4 ++ dr ++ sr1 ++ 0b0#1 ++ ign ++ sr2) = 0x0018#16 := by
  have h := layout_4_3_3_1_2_3 0b0101#4 dr sr1 0b0#1 ign sr2
  have := dr.isLt
  have := sr1.isLt
  have := ign.isLt
  have := sr2.isLt
  have h0 : fieldOpcode (0b0101#4 ++ dr ++ sr1 ++ 0b0#1 ++ ign ++ sr2) = 0b0101#4 := by
    apply BitVec.eq_of_toNat_eq
    rw [fieldOpcode, toNat_extract, h]
    simp
    try omega
  have h1 : fieldMode (0b0101#4 ++ dr ++ sr1 ++ 0b0#1 ++ ign ++ sr2) = 0b0#1 := by
    apply BitVec.eq_of_toNat_eq
    rw [fieldMode, toNat_extract, h]
    simp
    try omega
  clear h
  generalize ((0b0101#4 ++ dr ++ sr1 ++ 0b0#1 ++ ign ++ sr2) : Word) = w at *
  simp [ignoredBits, h0, h1]

theorem ignored_andImm (dr : BitVec 3) (sr1 : BitVec 3) (imm5 : BitVec 5) :
    ignoredBits (0b0101#4 ++ dr ++ sr1 ++ 0b1#1 ++ imm5) = 0x0000#16 := by
  have h := layout_4_3_3_1_5 0b0101#4 dr sr1 0b1#1 imm5
  have := dr.isLt
  have := sr1.isLt
  have := imm5.isLt
  have h0 : fieldOpcode (0b0101#4 ++ dr ++ sr1 ++ 0b1#1 ++ imm5) = 0b0101#4 := by
    apply BitVec.eq_of_toNat_eq
    rw [fieldOpcode, toNat_extract, h]
    simp
    try omega
  have h1 : fieldMode (0b0101#4 ++ dr ++ sr1 ++ 0b1#1 ++ imm5) = 0b1#1 := by
    apply BitVec.eq_of_toNat_eq
    rw [fieldMode, toNat_extract, h]
    simp
    try omega
  clear h
  generalize ((0b0101#4 ++ dr ++ sr1 ++ 0b1#1 ++ imm5) : Word) = w at *
  simp [ignoredBits, h0, h1]

theorem ignored_ldr (dr : BitVec 3) (base : BitVec 3) (off6 : BitVec 6) :
    ignoredBits (0b0110#4 ++ dr ++ base ++ off6) = 0x0000#16 := by
  have h := layout_4_3_3_6 0b0110#4 dr base off6
  have := dr.isLt
  have := base.isLt
  have := off6.isLt
  have h0 : fieldOpcode (0b0110#4 ++ dr ++ base ++ off6) = 0b0110#4 := by
    apply BitVec.eq_of_toNat_eq
    rw [fieldOpcode, toNat_extract, h]
    simp
    try omega
  clear h
  generalize ((0b0110#4 ++ dr ++ base ++ off6) : Word) = w at *
  simp [ignoredBits, h0]

theorem ignored_str (sr : BitVec 3) (base : BitVec 3) (off6 : BitVec 6) :
    ignoredBits (0b0111#4 ++ sr ++ base ++ off6) = 0x0000#16 := by
  have h := layout_4_3_3_6 0b0111#4 sr base off6
  have := sr.isLt
  have := base.isLt
  have := off6.isLt
  have h0 : fieldOpcode (0b0111#4 ++ sr ++ base ++ off6) = 0b0111#4 := by
    apply BitVec.eq_of_toNat_eq
    rw [fieldOpcode, toNat_extract, h]
    simp
    try omega
  clear h
  generalize ((0b0111#4 ++ sr ++ base ++ off6) : Word) = w at *
  simp [ignoredBits, h0]

theorem ignored_rsv1000 (low : BitVec 12) :
    ignoredBits (0b1000#4 ++ low) = 0x0FFF#16 := by
  have h := layout_4_12 0b1000#4 low
  have := low.isLt
  have h0 : fieldOpcode (0b1000#4 ++ low) = 0b1000#4 := by
    apply BitVec.eq_of_toNat_eq
    rw [fieldOpcode, toNat_extract, h]
    simp
    try omega
  clear h
  generalize ((0b1000#4 ++ low) : Word) = w at *
  simp [ignoredBits, h0]

theorem ignored_not (dr : BitVec 3) (sr : BitVec 3) (ign : BitVec 6) :
    ignoredBits (0b1001#4 ++ dr ++ sr ++ ign) = 0x003F#16 := by
  have h := layout_4_3_3_6 0b1001#4 dr sr ign
  have := dr.isLt
  have := sr.isLt
  have := ign.isLt
  have h0 : fieldOpcode (0b1001#4 ++ dr ++ sr ++ ign) = 0b1001#4 := by
    apply BitVec.eq_of_toNat_eq
    rw [fieldOpcode, toNat_extract, h]
    simp
    try omega
  clear h
  generalize ((0b1001#4 ++ dr ++ sr ++ ign) : Word) = w at *
  simp [ignoredBits, h0]

theorem ignored_ldi (dr : BitVec 3) (off9 : BitVec 9) :
    ignoredBits (0b1010#4 ++ dr ++ off9) = 0x0000#16 := by
  have h := layout_4_3_9 0b1010#4 dr off9
  have := dr.isLt
  have := off9.isLt
  have h0 : fieldOpcode (0b1010#4 ++ dr ++ off9) = 0b1010#4 := by
    apply BitVec.eq_of_toNat_eq
    rw [fieldOpcode, toNat_extract, h]
    simp
    try omega
  clear h
  generalize ((0b1010#4 ++ dr ++ off9) : Word) = w at *
  simp [ignoredBits, h0]

theorem ignored_sti (sr : BitVec 3) (off9 : BitVec 9) :
    ignoredBits (0b1011#4 ++ sr ++ off9) = 0x0000#16 := by
  have h := layout_4_3_9 0b1011#4 sr off9
  have := sr.isLt
  have := off9.isLt
  have h0 : fieldOpcode (0b1011#4 ++ sr ++ off9) = 0b1011#4 := by
    apply BitVec.eq_of_toNat_eq
    rw [fieldOpcode, toNat_extract, h]
    simp
    try omega
  clear h
  generalize ((0b1011#4 ++ sr ++ off9) : Word) = w at *
  simp [ignoredBits, h0]

theorem ignored_jmp (ign : BitVec 3) (base : BitVec 3) (ign2 : BitVec 6) :
    ignoredBits (0b1100#4 ++ ign ++ base ++ ign2) = 0x0E3F#16 := by
  have h := layout_4_3_3_6 0b1100#4 ign base ign2
  have := ign.isLt
  have := base.isLt
  have := ign2.isLt
  have h0 : fieldOpcode (0b1100#4 ++ ign ++ base ++ ign2) = 0b1100#4 := by
    apply BitVec.eq_of_toNat_eq
    rw [fieldOpcode, toNat_extract, h]
    simp
    try omega
  clear h
  generalize ((0b1100#4 ++ ign ++ base ++ ign2) : Word) = w at *
  simp [ignoredBits, h0]

theorem ignored_rsv1101 (low : BitVec 12) :
    ignoredBits (0b1101#4 ++ low) = 0x0FFF#16 := by
  have h := layout_4_12 0b1101#4 low
  have := low.isLt
  have h0 : fieldOpcode (0b1101#4 ++ low) = 0b1101#4 := by
    apply BitVec.eq_of_toNat_eq
    rw [fieldOpcode, toNat_extract, h]
    simp
    try omega
  clear h
  generalize ((0b1101#4 ++ low) : Word) = w at *
  simp [ignoredBits, h0]

theorem ignored_lea (dr : BitVec 3) (off9 : BitVec 9) :
    ignoredBits (0b1110#4 ++ dr ++ off9) = 0x0000#16 := by
  have h := layout_4_3_9 0b1110#4 dr off9
  have := dr.isLt
  have := off9.isLt
  have h0 : fieldOpcode (0b1110#4 ++ dr ++ off9) = 0b1110#4 := by
    apply BitVec.eq_of_toNat_eq
    rw [fieldOpcode, toNat_extract, h]
    simp
    try omega
  clear h
  generalize ((0b1110#4 ++ dr ++ off9) : Word) = w at *
  simp [ignoredBits, h0]

theorem ignored_trap (ign : BitVec 4) (vec : BitVec 8) :
    ignoredBits (0b1111#4 ++ ign ++ vec) = 0x0F00#16 := by
  have h := layout_4_4_8 0b1111#4 ign vec
  have := ign.isLt
  have := vec.isLt
  have h0 : fieldOpcode (0b1111#4 ++ ign ++ vec) = 0b1111#4 := by
    apply BitVec.eq_of_toNat_eq
    rw [fieldOpcode, toNat_extract, h]
    simp
    try omega
  clear h
  generalize ((0b1111#4 ++ ign ++ vec) : Word) = w at *
  simp [ignoredBits, h0]

/-! Words that agree outside a mask. -/

/-- A bit as a number. -/
theorem getLsbD_toNat (w : Word) (i : Nat) : w.getLsbD i = decide (w.toNat / 2 ^ i % 2 = 1) := by
  rw [BitVec.getLsbD, Nat.testBit_eq_decide_div_mod_eq]

/-- Equal outside a mask, bit by bit. -/
theorem masked_eq (a b m : Word) (h : ∀ i, i < 16 → m.getLsbD i = false → a.toNat / 2 ^ i % 2 = b.toNat / 2 ^ i % 2) :
   a &&& ~~~ m = b &&& ~~~ m := by
  apply BitVec.eq_of_getLsbD_eq
  intro i hi
  simp only [BitVec.getLsbD_and, BitVec.getLsbD_not, hi, decide_true, Bool.true_and]
  cases hm : m.getLsbD i with
  | true => simp
  | false => rw [getLsbD_toNat, getLsbD_toNat, h i hi hm]

/-- A field that the mask leaves alone is equal in both Words. -/
theorem field_of_masked (w w' m : Word) (h : w &&& ~~~ m = w' &&& ~~~ m) (a n : Nat)
    (hm : ∀ i, i < n → m.getLsbD (a + i) = false) : w.extractLsb' a n = w'.extractLsb' a n := by
  apply BitVec.eq_of_getLsbD_eq
  intro i hi
  have e := congrArg (fun v : Word => v.getLsbD (a + i)) h
  simp only [BitVec.getLsbD_and, BitVec.getLsbD_not, hm i hi] at e
  simp only [BitVec.getLsbD_extractLsb', hi, decide_true, Bool.true_and]
  by_cases hb : a + i < 16
  · simpa [hb] using e
  · rw [BitVec.getLsbD_of_ge _ _ (by omega), BitVec.getLsbD_of_ge _ _ (by omega)]

end Sys2Proof
end

