-- ==== Sys2Proof/Laws/Exec.lean ====
section
/-! SUPPORT. What a step can do, said once: a step is an instruction or a later look or lap of a routine, and every
instruction is a chain of primitive updates, so a relation kept by the primitives is kept by a step. -/

namespace Sys2Proof.Machine

/-- A relation between states that each primitive update keeps, but for the store, the stop and the fatal condition. -/
structure Chain (R : State → State → Prop) : Prop where
  refl : ∀ s, R s s
  trans : ∀ {s t u}, R s t → R t u → R s u
  setReg : ∀ s r v, R s (s.setReg r v)
  setPc : ∀ s a, R s (s.setPc a)
  setcc : ∀ s r, R s (setcc r s)
  setBusy : ∀ s b, R s (s.setBusy b)
  read : ∀ s a, R s (memRead s a).2
  put : ∀ s b, R s (consolePut b s)
  flush : ∀ s, R s (consoleFlush s)
  turn : ∀ s, R s (hostTurn s)
  take : ∀ s t b, takeByte s = some (b, t) → R s t

section
variable {R : State → State → Prop} (h : Chain R)
include h

/-- A flag-updating result. -/
theorem Chain.writeResult (s : State) (r : Reg) (v : Word) : R s (writeResult r v s) :=
  h.trans (h.setReg s r v) (h.setcc _ r)

/-- The link write. -/
theorem Chain.link (s : State) : R s (link s) := h.setReg s _ _

/-- A list of bytes written. -/
theorem Chain.puts (bs : List Byte) : ∀ s, R s (consolePuts bs s) := by
  induction bs with
  | nil => exact h.refl
  | cons b rest ih => intro s; exact h.trans (h.put s b) (ih _)

/-- The end of a load. -/
theorem Chain.load (s : State) (a : Word) (dr : Reg) : R s (loadFrom a dr s) :=
  h.trans (h.read s a) (h.writeResult _ _ _)

/-- GETC from its read on. -/
theorem Chain.getc (s : State) : R s (getcRead s) := by
  unfold getcRead
  split
  · rename_i b t e
    exact h.trans (h.turn s) (h.trans (h.take _ _ _ e) (h.trans (h.setBusy _ _) (h.writeResult _ _ _)))
  · exact h.trans (h.turn s) (h.setBusy _ _)

/-- IN from its read on. -/
theorem Chain.inp (s : State) : R s (inRead s) := by
  unfold inRead
  split
  · rename_i b t e
    exact h.trans (h.turn s) (h.trans (h.take _ _ _ e) (h.trans (h.put _ _) (h.trans (h.flush _) (h.trans (h.setBusy _ _) (h.writeResult _ _ _)))))
  · exact h.trans (h.turn s) (h.setBusy _ _)

/-- A string scan. -/
theorem Chain.scan (f : Word → List Byte) (uw : Word → Busy) (n : Nat) : ∀ a s, R s (scanString f uw n a s) := by
  induction n with
  | zero => intro a s; exact h.setBusy _ _
  | succ n ih =>
    intro a s
    simp only [scanString]
    split
    · exact h.trans (h.read s a) (h.trans (h.flush _) (h.setBusy _ _))
    · exact h.trans (h.read s a) (h.trans (h.puts _ _) (ih _ _))

/-- A later step of a routine under way. -/
theorem Chain.resume (s : State) : R s (resumeRoutine s) := by
  unfold resumeRoutine
  split
  · exact h.refl s
  · exact h.getc s
  · exact h.inp s
  · exact h.scan _ _ _ _ _
  · exact h.scan _ _ _ _ _

/-- Fetch and advance. -/
theorem Chain.fetch (s : State) : R s (fetch s).2 := h.trans (h.read s s.pc) (h.setPc _ _)

/-- HALT, given its stop. -/
theorem Chain.haltRoutine (s : State) (hh : ∀ u, R u (u.setRun .halted)) : R s (routineHalt s) :=
  h.trans (h.puts _ _) (h.trans (h.flush _) (hh _))

/-- The trap dispatch, given the two ends of a run. -/
theorem Chain.dispatch (v : BitVec 8) (w : Word) (s : State) (hh : ∀ u, R u (u.setRun .halted))
    (hf : ∀ u, R u (raiseFatal .unknownTrapVector w u)) : R s (dispatchTrap v w s) := by
  unfold dispatchTrap
  split
  · exact h.getc s
  split
  · exact h.trans (h.put _ _) (h.flush _)
  split
  · exact h.scan _ _ _ _ _
  split
  · exact h.trans (h.puts _ _) (h.trans (h.flush _) (h.inp _))
  split
  · exact h.scan _ _ _ _ _
  split
  · exact h.haltRoutine s hh
  · exact hf s

/-- Any instruction, given its store (if it has one) and its end of the run (if it is one). -/
theorem Chain.exec (i : Instr) (s t : State) (hst : ∀ u a v, storeAddress i s = some a → R u (u.poke a v))
    (hh : (i = .halt ∨ ∃ g v, i = .trap g v) → ∀ u, R u (u.setRun .halted))
    (hf : (fatalOf i).isSome = true → ∀ u c w, R u (raiseFatal c w u))
    (e : exec i s = .next t) : R s t := by
  cases i <;> simp only [Machine.exec] at e
  case br => 
    rw [execBr, Host.Outcome.next.injEq] at e
    subst e; split
    · exact h.setPc _ _
    · exact h.refl _
  case addReg => cases e; exact h.writeResult _ _ _
  case addImm => cases e; exact h.writeResult _ _ _
  case ld => cases e; exact h.load _ _ _
  case st => cases e; exact hst _ _ _ rfl
  case jsr => cases e; exact h.trans (h.link s) (h.setPc _ _)
  case jsrr => cases e; exact h.trans (h.link s) (h.setPc _ _)
  case andReg => cases e; exact h.writeResult _ _ _
  case andImm => cases e; exact h.writeResult _ _ _
  case ldr => cases e; exact h.load _ _ _
  case str => cases e; exact hst _ _ _ rfl
  case rsv1000 => cases e; exact hf rfl _ _ _
  case not => cases e; exact h.writeResult _ _ _
  case ldi => cases e; exact h.trans (h.read _ _) (h.load _ _ _)
  case sti => cases e; exact h.trans (h.read _ _) (hst _ _ _ rfl)
  case jmp => cases e; exact h.setPc _ _
  case rsv1101 => cases e; exact hf rfl _ _ _
  case lea => cases e; exact h.writeResult _ _ _
  case getc => cases e; exact h.trans (h.link s) (h.getc _)
  case out => cases e; exact h.trans (h.link s) (h.trans (h.put _ _) (h.flush _))
  case puts => cases e; exact h.trans (h.link s) (h.scan _ _ _ _ _)
  case inp => cases e; exact h.trans (h.link s) (h.trans (h.puts _ _) (h.trans (h.flush _) (h.inp _)))
  case putsp => cases e; exact h.trans (h.link s) (h.scan _ _ _ _ _)
  case halt => cases e; exact h.trans (h.link s) (h.haltRoutine _ (hh (.inl rfl)))
  case trap g v => cases e; exact h.trans (h.link s) (h.dispatch _ _ _ (hh (.inr ⟨g, v, rfl⟩)) (fun u => hf rfl u _ _))

end

/-! The step (R110, R212). -/

/-- Every instruction answers a next state; what ends the run is in that state's RUN. -/
theorem exec_next (i : Instr) (s : State) : ∃ t, exec i s = .next t := by
  cases i <;> exact ⟨_, rfl⟩

/-- A step with a routine under way. -/
theorem step_busy (s : State) (hr : s.run = .running) (hb : s.busy ≠ .idle) : step s = .next (resumeRoutine s) := by
  simp [step, hr, hb]

/-- A step that fetches. -/
theorem step_idle (s : State) (hr : s.run = .running) (hb : s.busy = .idle) : step s = endStep (exec (decode s.cfg (fetch s).1) (fetch s).2) := by
  simp [step, hr, hb]

/-- A step that answers a next state ran an instruction that did not end in FATAL, or went on with a routine. -/
theorem step_inv (s t : State) (e : step s = .next t) :
    s.run = .running ∧ ((s.busy = .idle ∧ exec (decode s.cfg (fetch s).1) (fetch s).2 = .next t ∧ t.run ≠ .fatal) ∨
      (s.busy ≠ .idle ∧ t = resumeRoutine s)) := by
  cases hr : s.run with
  | halted => simp [step, hr] at e
  | fatal => simp [step, hr] at e
  | running =>
    refine ⟨rfl, ?_⟩
    by_cases hb : s.busy = .idle
    · left
      rw [step_idle s hr hb] at e
      obtain ⟨u, hu⟩ := exec_next (decode s.cfg (fetch s).1) (fetch s).2
      rw [hu] at e ⊢
      by_cases hf : u.run = .fatal
      · simp [endStep, hf] at e
      · simp [endStep, hf] at e
        subst e
        exact ⟨hb, rfl, hf⟩
    · right
      rw [step_busy s hr hb] at e
      exact ⟨hb, by cases e; rfl⟩

/-- A relation kept by every primitive, the two ends of a run and the store of the instruction at hand is kept by a step. -/
theorem Chain.step {R} (h : Chain R) (s t : State)
    (hst : ∀ u a v, storeAddress (decode s.cfg (Machine.fetch s).1) (Machine.fetch s).2 = some a → R u (u.poke a v))
    (hh : ∀ u, R u (u.setRun .halted)) (hf : ∀ u c w, R u (raiseFatal c w u)) (e : Machine.step s = .next t) : R s t := by
  obtain ⟨_, ⟨_, e, _⟩ | ⟨_, e⟩⟩ := step_inv s t e
  · exact h.trans (h.fetch s) (h.exec _ _ _ hst (fun _ => hh) (fun _ => hf) e)
  · subst e; exact h.resume s

/-- No primitive but the two ends of a run writes RUN (R34). -/
theorem run_chain : Chain (fun s t => t.run = s.run) where
  refl _ := rfl
  trans h1 h2 := h2.trans h1
  setReg _ _ _ := rfl
  setPc _ _ := rfl
  setcc _ _ := rfl
  setBusy _ _ := rfl
  read := by simp
  put _ _ := rfl
  flush _ := rfl
  turn s := by simp
  take s t b e := by
    obtain ⟨l, h1, rfl⟩ := (takeByte_eq_some _ _ _).mp e
    rfl

/-- What RUN is after an instruction (R34). -/
theorem exec_run (i : Instr) (s t : State) (hw : i.wf s.cfg = true) (e : exec i s = .next t) :
    t.run = if i = .halt then .halted else if (fatalOf i).isSome then .fatal else s.run := by
  by_cases h1 : i = .halt
  · subst h1; cases e; simp [routineHalt]
  · rw [if_neg h1]
    by_cases h2 : (fatalOf i).isSome = true
    · rw [if_pos h2]
      cases i <;> simp [fatalOf] at h2
      case rsv1000 => cases e; simp
      case rsv1101 => cases e; simp
      case trap g v => 
        cases e
        rw [dispatch_undefined _ _ _ (by simpa [Instr.wf] using hw)]; simp
    · rw [if_neg h2]
      refine run_chain.exec i s t (fun _ _ _ _ => rfl) ?_ (fun h => absurd h h2) e
      rintro (h | ⟨g, v, rfl⟩)
      · exact absurd h h1
      · simp [fatalOf] at h2

/-- No primitive changes the parameters. -/
theorem cfg_chain : Chain (fun s t => t.cfg = s.cfg) where
  refl _ := rfl
  trans h1 h2 := h2.trans h1
  setReg _ _ _ := rfl
  setPc _ _ := rfl
  setcc _ _ := rfl
  setBusy _ _ := rfl
  read := by simp
  put _ _ := rfl
  flush _ := rfl
  turn s := by simp
  take s t b e := by
    obtain ⟨l, h1, rfl⟩ := (takeByte_eq_some _ _ _).mp e
    rfl

/-- A decoded instruction that raises a fatal condition: which Words those are, and that the report is the Word (R190, R191, R179, R203). -/
theorem fatalOf_decode (c : Config) (w : Word) (r : FatalReport) (h : fatalOf (decode c w) = some r) :
    r.word = w ∧ ((r.cond = .decodeError ∧ (fieldOpcode w = 0b1000#4 ∨ fieldOpcode w = 0b1101#4) ∧ ∃ low, decode c w = .rsv1000 low ∨ decode c w = .rsv1101 low) ∨
      (r.cond = .unknownTrapVector ∧ fieldOpcode w = 0b1111#4 ∧ fieldVec w ∉ c.vectors ∧ ∃ g, decode c w = .trap g (fieldVec w))) := by
  have op : ∀ w : Word, fieldOpcode w = w.extractLsb' 12 4 := fun _ => rfl
  cases layout_of w
  case rsv1000 low =>
    have e : fieldOpcode (0b1000#4 ++ low) = 0b1000#4 := by
      apply BitVec.eq_of_toNat_eq; rw [op, toNat_extract, layout_4_12]; have := low.isLt; simp; omega
    rw [decode_rsv1000] at h ⊢; cases h; exact ⟨rfl, .inl ⟨rfl, .inl e, _, .inl rfl⟩⟩
  case rsv1101 low =>
    have e : fieldOpcode (0b1101#4 ++ low) = 0b1101#4 := by
      apply BitVec.eq_of_toNat_eq; rw [op, toNat_extract, layout_4_12]; have := low.isLt; simp; omega
    rw [decode_rsv1101] at h ⊢; cases h; exact ⟨rfl, .inl ⟨rfl, .inr e, _, .inr rfl⟩⟩
  case trap g v =>
    have e : fieldOpcode (0b1111#4 ++ g ++ v) = 0b1111#4 := by
      apply BitVec.eq_of_toNat_eq; rw [op, toNat_extract, layout_4_4_8]; have := v.isLt; have := g.isLt; simp; omega
    have e2 : fieldVec (0b1111#4 ++ g ++ v) = v := by
      apply BitVec.eq_of_toNat_eq; rw [fieldVec, toNat_extract, layout_4_4_8]; have := v.isLt; have := g.isLt; simp; omega
    rw [e, e2]
    rw [decode_trapWord] at h ⊢
    by_cases hv : v ∈ c.vectors
    · exfalso
      simp only [Config.vectors, List.mem_cons, List.not_mem_nil, or_false] at hv
      unfold decodeTrap at h
      split_ifs at h <;> first | (simp [fatalOf] at h; done) | simp_all
    · rw [decodeTrap_other _ _ _ hv] at h ⊢; cases h; exact ⟨rfl, .inr ⟨rfl, rfl, hv, _, rfl⟩⟩
  case br => rw [decode_br] at h; simp [fatalOf] at h
  case addReg => rw [decode_addReg] at h; simp [fatalOf] at h
  case addImm => rw [decode_addImm] at h; simp [fatalOf] at h
  case ld => rw [decode_ld] at h; simp [fatalOf] at h
  case st => rw [decode_st] at h; simp [fatalOf] at h
  case jsr => rw [decode_jsr] at h; simp [fatalOf] at h
  case jsrr => rw [decode_jsrr] at h; simp [fatalOf] at h
  case andReg => rw [decode_andReg] at h; simp [fatalOf] at h
  case andImm => rw [decode_andImm] at h; simp [fatalOf] at h
  case ldr => rw [decode_ldr] at h; simp [fatalOf] at h
  case str => rw [decode_str] at h; simp [fatalOf] at h
  case not => rw [decode_not] at h; simp [fatalOf] at h
  case ldi => rw [decode_ldi] at h; simp [fatalOf] at h
  case sti => rw [decode_sti] at h; simp [fatalOf] at h
  case jmp => rw [decode_jmp] at h; simp [fatalOf] at h
  case lea => rw [decode_lea] at h; simp [fatalOf] at h

/-- A decoded TRAP is well-formed (R97). -/
theorem decodeTrap_wf (c : Config) (g : BitVec 4) (v : BitVec 8) : (decodeTrap c g v).wf c = true := by
  unfold decodeTrap
  repeat' split
  all_goals first | rfl | simp [Instr.wf, Config.vectors, *]

end Sys2Proof.Machine
end

