-- ==== Sys2Proof/Laws/Registers.lean ====
section
/-! SUPPORT. A write to one register against the operations that neither read nor write it. -/

namespace Sys2Proof.Machine

/-- Two writes at different indexes commute. -/
theorem vector_set_comm (x : Vector Word 8) (a b : Reg) (v w : Word) (h : a ≠ b) :
    (x.set a.toNat v a.isLt).set b.toNat w b.isLt = (x.set b.toNat w b.isLt).set a.toNat v a.isLt := by
  apply Vector.set_comm
  intro h'; apply h; apply BitVec.eq_of_toNat_eq; exact h'

/-- Writes to different registers commute. -/
theorem setReg_setReg (s : State) (a b : Reg) (v w : Word) (h : a ≠ b) :
    (s.setReg a v).setReg b w = (s.setReg b w).setReg a v := by
  simp only [State.setReg]
  congr 1
  exact vector_set_comm s.x a b v w h

/-- The look at the input queue reads no register. -/
theorem hostTurn_setReg (s : State) (r : Reg) (v : Word) : hostTurn (s.setReg r v) = (hostTurn s).setReg r v := rfl

/-- A result for R0 against another register. -/
theorem writeResult_setReg (s : State) (r : Reg) (v w : Word) (h0 : r ≠ 0#3) :
    writeResult 0#3 w (s.setReg r v) = (writeResult 0#3 w s).setReg r v := by
  simp only [writeResult, setcc]
  rw [setReg_setReg _ _ _ _ _ h0, reg_setReg_other _ _ _ _ (Ne.symm h0)]
  rfl

/-- GETC from its read on reads no register (R181). -/
theorem getcRead_setReg (s : State) (r : Reg) (v : Word) (h0 : r ≠ 0#3) : getcRead (s.setReg r v) = (getcRead s).setReg r v := by
  cases h : (hostTurn s).kq with
  | nil => rw [getcRead_none s h, getcRead_none _ (by rw [hostTurn_setReg]; exact h), hostTurn_setReg]; rfl
  | cons b l => rw [getcRead_some s b l h, getcRead_some _ b l (by rw [hostTurn_setReg]; exact h), hostTurn_setReg, ← writeResult_setReg _ _ _ _ h0]; rfl

/-- IN from its read on reads no register (R181). -/
theorem inRead_setReg (s : State) (r : Reg) (v : Word) (h0 : r ≠ 0#3) : inRead (s.setReg r v) = (inRead s).setReg r v := by
  cases h : (hostTurn s).kq with
  | nil => rw [inRead_none s h, inRead_none _ (by rw [hostTurn_setReg]; exact h), hostTurn_setReg]; rfl
  | cons b l => rw [inRead_some s b l h, inRead_some _ b l (by rw [hostTurn_setReg]; exact h), hostTurn_setReg, ← writeResult_setReg _ _ _ _ h0]; rfl

/-- The poll reads no register. -/
theorem keyboardPoll_setReg (s : State) (r : Reg) (v : Word) : keyboardPoll (s.setReg r v) = (keyboardPoll s).setReg r v := by
  have e := hostTurn_setReg s r v
  rcases keyboardPoll_cases s with ⟨c, l, h, e2⟩ | ⟨h, e2⟩
  · rw [e2, keyboardPoll_ready (s.setReg r v) c l (by rw [e]; simpa using h), e]; rfl
  · rw [e2, keyboardPoll_clear (s.setReg r v) (by rw [e]; simpa using h), e]; rfl

/-- A read at a given address reads no register. -/
theorem memRead_setReg (s : State) (r : Reg) (v : Word) (a : Word) :
    memRead (s.setReg r v) a = ((memRead s a).1, (memRead s a).2.setReg r v) := by
  by_cases h : a = s.cfg.kbsr
  · subst h
    have := memRead_kbsr (s.setReg r v)
    rw [keyboardPoll_setReg] at this
    rw [memRead_kbsr]; exact this
  · rw [memRead_other s a h]; exact memRead_other (s.setReg r v) a h

/-- Writing bytes reads no register. -/
theorem consolePuts_setReg (bs : List Byte) (s : State) (r : Reg) (v : Word) : consolePuts bs (s.setReg r v) = (consolePuts bs s).setReg r v := by
  simp only [consolePuts_eq]; rfl

/-- A string scan from a given address reads no register (R181). -/
theorem scanString_setReg (f : Word → List Byte) (uw : Word → Busy) (n : Nat) (r : Reg) (v : Word) : ∀ a s,
    scanString f uw n a (s.setReg r v) = (scanString f uw n a s).setReg r v := by
  induction n with
  | zero => intro a s; rfl
  | succ n ih =>
    intro a s
    simp only [scanString, memRead_setReg]
    split
    · rfl
    · rw [consolePuts_setReg, ih]

end Sys2Proof.Machine
end

