-- ==== Sys2Proof/Laws/Reset.lean ====
section
/-! SUPPORT. What placing an image does to memory (R235, R236). -/

namespace Sys2Proof.Machine

/-- Placing an image within the address space keeps the canonical form. -/
theorem placeImage_wf (im : List Word) : ∀ (a : Nat) (m : Memory), m.wf = true → a + im.length ≤ 65536 → (placeImage im a m).wf = true := by
  induction im with
  | nil => intro a m h _; exact h
  | cons w rest ih =>
    intro a m h hl
    simp only [List.length_cons] at hl
    exact ih _ _ (memSet_wf m a w (by omega) h) (by omega)

/-- A placed image reads as its Words, and every other address as before. -/
theorem placeImage_get (im : List Word) : ∀ (a b : Nat) (m : Memory),
    memGet (placeImage im a m) b = if h : a ≤ b ∧ b < a + im.length then im[b - a]'(by omega) else memGet m b := by
  induction im with
  | nil => intro a b m; simp [placeImage]
  | cons w rest ih =>
    intro a b m
    simp only [placeImage, List.length_cons]
    rw [ih, memGet_memSet]
    by_cases h1 : b = a
    · subst h1; simp
    · by_cases h2 : a + 1 ≤ b ∧ b < a + 1 + rest.length
      · rw [dif_pos h2, dif_pos (by omega)]
        obtain ⟨k, rfl⟩ : ∃ k, b = a + 1 + k := ⟨b - (a + 1), by omega⟩
        have : a + 1 + k - a = k + 1 := by omega
        simp [this]
      · rw [dif_neg h2, if_neg h1, dif_neg (by omega)]

end Sys2Proof.Machine
end

