-- ==== Sys2Proof/Tests/Slice0.lean ====
section
/-! SUPPORT. Tests of the model against the spec's own vectors, each about one Word or one step, and for every statement with
hypotheses a state and operands that meet them. Expected values stand in `95_test_vectors.md` unless a docstring says
otherwise; they are not this model's answers. -/

namespace Sys2Proof.Machine.Slice0

/-- The conventions of `95_test_vectors.md`: the Word at an address, registers and memory not listed 0, COND ZERO, no input
pending, default parameters. -/
def vec (at_ w : Word) (regs : List (Reg × Word)) (mem : List (Word × Word)) : State :=
  let s := State.reset.setPc at_
  let s := mem.foldl (fun s p => s.poke p.1 p.2) s
  let s := s.poke at_ w
  regs.foldl (fun s p => s.setReg p.1 p.2) s

/-- The same at 0x3000 with no memory listed. -/
def vec0 (w : Word) (regs : List (Reg × Word)) : State := vec 0x3000#16 w regs []

/-- A host that delivers these batches, one per look, and then falls silent. -/
def plan (batches : List (List Byte)) : HostPlan := { soon := batches, after := .again [] }

/-- A host that delivers this byte before every look, for ever. -/
def steady (b : Byte) : HostPlan := { soon := [], after := .again [[b]] }

/-- The next state of a step, if it has one. -/
def stepped (s : State) : Option State :=
  match step s with
  | .next t => some t
  | _ => none

/-- The condition, Word and final state of a step that ended in FATAL. -/
def aborted (s : State) : Option (FatalCondition × Word × State) :=
  match step s with
  | .fault (.decodeError w t) => some (.decodeError, w, t)
  | .fault (.unknownTrapVector w t) => some (.unknownTrapVector, w, t)
  | _ => none

/-- A register, COND and pc after a step. -/
def result (r : Reg) (s : State) : Option (Word × BitVec 3 × Word) :=
  (stepped s).map (fun t => (t.reg r, t.cond, t.pc))

/-- A Word of memory, COND and pc after a step. -/
def stored (a : Word) (s : State) : Option (Word × BitVec 3 × Word) :=
  (stepped s).map (fun t => (t.peek a, t.cond, t.pc))

/-- The output, R7 and pc after a step. -/
def written (s : State) : Option (List Byte × Word × Word) :=
  (stepped s).map (fun t => (t.outq, t.reg 7#3, t.pc))

/-! Well-formedness. -/

/-- R97: the last row is not for the six vectors; 0x20 is TV_GETC. -/
theorem test_wf_refuses_defined_vector :
    Instr.wf defaultConfig (.trap 0x0#4 0x20#8) = false := by decide

/-- R97, the other end of the six: 0x25 is TV_HALT. -/
theorem test_wf_refuses_halt_vector :
    Instr.wf defaultConfig (.trap 0xF#4 0x25#8) = false := by decide

/-- 0x1F and 0x26 stand on either side of the six vectors. -/
theorem test_wf_accepts_undefined_vectors :
    Instr.wf defaultConfig (.trap 0x0#4 0x1F#8) = true ∧ Instr.wf defaultConfig (.trap 0x0#4 0x26#8) = true := by decide

/-- R7: KBSR and KBDR differ. -/
theorem test_config_refuses_one_device_address :
    Config.wf { defaultConfig with kbdr := 0xFE00#16 } = false := by decide

/-- R7: the six vectors are pairwise distinct. -/
theorem test_config_refuses_equal_vectors :
    Config.wf { defaultConfig with tvHalt := 0x20#8 } = false := by decide

/-- R7: the flag values are the three one-hot values. -/
theorem test_config_refuses_flags_not_one_hot :
    Config.wf { defaultConfig with flagP := 0b011#3 } = false ∧ Config.wf { defaultConfig with flagP := 0b100#3 } = false := by decide

/-- The defaults meet R7. -/
theorem test_config_accepts_the_defaults :
    Config.wf defaultConfig = true := by decide

/-! Decoding: one Word per constructor, written from the layouts of R83; the encoder gives the Word back where its ignored bits
are 0. -/

/-- 0x0BFD = 0000 101 111111101. -/
theorem test_decode_br :
    decode defaultConfig 0b0000101111111101#16 = .br 0b101#3 0x1FD#9 ∧ encode defaultConfig (.br 0b101#3 0x1FD#9) = 0x0BFD#16 := by decide

/-- 0x0000 = 0000 000 000000000. -/
theorem test_decode_br_nop :
    decode defaultConfig 0b0000000000000000#16 = .br 0b000#3 0x000#9 ∧ encode defaultConfig (.br 0b000#3 0x000#9) = 0x0000#16 := by decide

/-- 0x1042 = 0001 000 001 0 00 010. -/
theorem test_decode_add_reg :
    decode defaultConfig 0b0001000001000010#16 = .addReg 0#3 1#3 2#3 ∧ encode defaultConfig (.addReg 0#3 1#3 2#3) = 0x1042#16 := by decide

/-- 0x105A = 0001 000 001 0 11 010. -/
theorem test_decode_add_reg_ignored :
    decode defaultConfig 0b0001000001011010#16 = .addReg 0#3 1#3 2#3 := by decide

/-- 0x1265 = 0001 001 001 1 00101. -/
theorem test_decode_add_imm :
    decode defaultConfig 0b0001001001100101#16 = .addImm 1#3 1#3 0b00101#5 ∧ encode defaultConfig (.addImm 1#3 1#3 0b00101#5) = 0x1265#16 := by decide

/-- 0x2402 = 0010 010 000000010. -/
theorem test_decode_ld :
    decode defaultConfig 0b0010010000000010#16 = .ld 2#3 2#9 ∧ encode defaultConfig (.ld 2#3 2#9) = 0x2402#16 := by decide

/-- 0x3601 = 0011 011 000000001. -/
theorem test_decode_st :
    decode defaultConfig 0b0011011000000001#16 = .st 3#3 1#9 ∧ encode defaultConfig (.st 3#3 1#9) = 0x3601#16 := by decide

/-- 0x4C00 = 0100 1 10000000000. -/
theorem test_decode_jsr :
    decode defaultConfig 0b0100110000000000#16 = .jsr 0b10000000000#11 ∧ encode defaultConfig (.jsr 0b10000000000#11) = 0x4C00#16 := by decide

/-- 0x4080 = 0100 0 00 010 000000. -/
theorem test_decode_jsrr :
    decode defaultConfig 0b0100000010000000#16 = .jsrr 2#3 ∧ encode defaultConfig (.jsrr 2#3) = 0x4080#16 := by decide

/-- 0x46BF = 0100 0 11 010 111111. -/
theorem test_decode_jsrr_ignored :
    decode defaultConfig 0b0100011010111111#16 = .jsrr 2#3 := by decide

/-- 0x5042 = 0101 000 001 0 00 010. -/
theorem test_decode_and_reg :
    decode defaultConfig 0b0101000001000010#16 = .andReg 0#3 1#3 2#3 ∧ encode defaultConfig (.andReg 0#3 1#3 2#3) = 0x5042#16 := by decide

/-- 0x5070 = 0101 000 001 1 10000. -/
theorem test_decode_and_imm :
    decode defaultConfig 0b0101000001110000#16 = .andImm 0#3 1#3 0b10000#5 ∧ encode defaultConfig (.andImm 0#3 1#3 0b10000#5) = 0x5070#16 := by decide

/-- 0x6A7F = 0110 101 001 111111. -/
theorem test_decode_ldr :
    decode defaultConfig 0b0110101001111111#16 = .ldr 5#3 1#3 0b111111#6 ∧ encode defaultConfig (.ldr 5#3 1#3 0b111111#6) = 0x6A7F#16 := by decide

/-- 0x7442 = 0111 010 001 000010. -/
theorem test_decode_str :
    decode defaultConfig 0b0111010001000010#16 = .str 2#3 1#3 0b000010#6 ∧ encode defaultConfig (.str 2#3 1#3 0b000010#6) = 0x7442#16 := by decide

/-- 0x8FFF = 1000 111111111111. -/
theorem test_decode_rsv1000 :
    decode defaultConfig 0b1000111111111111#16 = .rsv1000 0xFFF#12 ∧ encode defaultConfig (.rsv1000 0xFFF#12) = 0x8FFF#16 := by decide

/-- 0x9040 = 1001 000 001 000000. -/
theorem test_decode_not :
    decode defaultConfig 0b1001000001000000#16 = .not 0#3 1#3 ∧ encode defaultConfig (.not 0#3 1#3) = 0x9040#16 := by decide

/-- 0xA001 = 1010 000 000000001. -/
theorem test_decode_ldi :
    decode defaultConfig 0b1010000000000001#16 = .ldi 0#3 1#9 ∧ encode defaultConfig (.ldi 0#3 1#9) = 0xA001#16 := by decide

/-- 0xB201 = 1011 001 000000001. -/
theorem test_decode_sti :
    decode defaultConfig 0b1011001000000001#16 = .sti 1#3 1#9 ∧ encode defaultConfig (.sti 1#3 1#9) = 0xB201#16 := by decide

/-- 0xC1C0 = 1100 000 111 000000. -/
theorem test_decode_jmp_ret :
    decode defaultConfig 0b1100000111000000#16 = .jmp 7#3 ∧ encode defaultConfig (.jmp 7#3) = 0xC1C0#16 := by decide

/-- 0xCEBF = 1100 111 010 111111. -/
theorem test_decode_jmp_ignored :
    decode defaultConfig 0b1100111010111111#16 = .jmp 2#3 := by decide

/-- 0xD123 = 1101 000100100011. -/
theorem test_decode_rsv1101 :
    decode defaultConfig 0b1101000100100011#16 = .rsv1101 0x123#12 ∧ encode defaultConfig (.rsv1101 0x123#12) = 0xD123#16 := by decide

/-- 0xE1FF = 1110 000 111111111. -/
theorem test_decode_lea :
    decode defaultConfig 0b1110000111111111#16 = .lea 0#3 0b111111111#9 ∧ encode defaultConfig (.lea 0#3 0b111111111#9) = 0xE1FF#16 := by decide

/-- 0xF020 = 1111 0000 00100000. -/
theorem test_decode_getc :
    decode defaultConfig 0b1111000000100000#16 = .getc ∧ encode defaultConfig .getc = 0xF020#16 := by decide

/-- 0xF021 = 1111 0000 00100001. -/
theorem test_decode_out :
    decode defaultConfig 0b1111000000100001#16 = .out ∧ encode defaultConfig .out = 0xF021#16 := by decide

/-- 0xFF21 = 1111 1111 00100001. -/
theorem test_decode_out_ignored :
    decode defaultConfig 0b1111111100100001#16 = .out := by decide

/-- 0xF022 = 1111 0000 00100010. -/
theorem test_decode_puts :
    decode defaultConfig 0b1111000000100010#16 = .puts ∧ encode defaultConfig .puts = 0xF022#16 := by decide

/-- 0xF023 = 1111 0000 00100011. -/
theorem test_decode_in :
    decode defaultConfig 0b1111000000100011#16 = .inp ∧ encode defaultConfig .inp = 0xF023#16 := by decide

/-- 0xF024 = 1111 0000 00100100. -/
theorem test_decode_putsp :
    decode defaultConfig 0b1111000000100100#16 = .putsp ∧ encode defaultConfig .putsp = 0xF024#16 := by decide

/-- 0xF025 = 1111 0000 00100101. -/
theorem test_decode_halt :
    decode defaultConfig 0b1111000000100101#16 = .halt ∧ encode defaultConfig .halt = 0xF025#16 := by decide

/-- 0xF01F = 1111 0000 00011111. -/
theorem test_decode_trap_below :
    decode defaultConfig 0b1111000000011111#16 = .trap 0x0#4 0x1F#8 ∧ encode defaultConfig (.trap 0x0#4 0x1F#8) = 0xF01F#16 := by decide

/-- 0xF026 = 1111 0000 00100110. -/
theorem test_decode_trap_above :
    decode defaultConfig 0b1111000000100110#16 = .trap 0x0#4 0x26#8 ∧ encode defaultConfig (.trap 0x0#4 0x26#8) = 0xF026#16 := by decide

/-- The host's probe numbers one Word, bit 0 least significant. -/
theorem test_decode_table_word :
    decodeTableWord 16 0xB201 = some (.sti 1#3 1#9) := by decide

/-! One step per instruction (parts 2.2 to 2.5). -/

/-- 0x1042, 0xFFFF + 1. -/
theorem test_add_reg_wraps :
    result 0#3 (vec0 0x1042#16 [(1#3, 0xFFFF#16), (2#3, 0x0001#16)]) = some (0x0000#16, 0b010#3, 0x3001#16) := by decide

/-- 0x1241, the destination is both sources. -/
theorem test_add_reg_doubles :
    result 1#3 (vec0 0x1241#16 [(1#3, 0x4001#16)]) = some (0x8002#16, 0b100#3, 0x3001#16) := by decide

/-- 0x1030, ADD R0, R0, #-16. -/
theorem test_add_imm_negative :
    result 0#3 (vec0 0x1030#16 [(0#3, 0x0010#16)]) = some (0x0000#16, 0b010#3, 0x3001#16) := by decide

/-- 0x102F, 0x7FF1 + 15. -/
theorem test_add_imm_overflow :
    result 0#3 (vec0 0x102F#16 [(0#3, 0x7FF1#16)]) = some (0x8000#16, 0b100#3, 0x3001#16) := by decide

/-- 0x5042. -/
theorem test_and_reg :
    result 0#3 (vec0 0x5042#16 [(1#3, 0xF0F0#16), (2#3, 0xFF00#16)]) = some (0xF000#16, 0b100#3, 0x3001#16) := by decide

/-- 0x5070, AND R0, R1, #-16. -/
theorem test_and_imm_sign_extends :
    result 0#3 (vec0 0x5070#16 [(1#3, 0xABCD#16)]) = some (0xABC0#16, 0b100#3, 0x3001#16) := by decide

/-- 0x506F, AND R0, R1, #15. -/
theorem test_and_imm_positive :
    result 0#3 (vec0 0x506F#16 [(1#3, 0xABCD#16)]) = some (0x000D#16, 0b001#3, 0x3001#16) := by decide

/-- 0x907F, ones in the ignored bits. -/
theorem test_not :
    result 0#3 (vec0 0x907F#16 [(1#3, 0x00FF#16)]) = some (0xFF00#16, 0b100#3, 0x3001#16) := by decide

/-- 0x9480, the source is the destination. -/
theorem test_not_in_place :
    result 2#3 (vec0 0x9480#16 [(2#3, 0xFFFF#16)]) = some (0x0000#16, 0b010#3, 0x3001#16) := by decide

/-- 0x25FF, LD R2, #-1. -/
theorem test_ld_own_word :
    result 2#3 (vec0 0x25FF#16 []) = some (0x25FF#16, 0b001#3, 0x3001#16) := by decide

/-- 0x2000 at 0xFFFF. -/
theorem test_ld_wraps :
    result 0#3 (vec 0xFFFF#16 0x2000#16 [] [(0x0000#16, 0x1111#16)]) = some (0x1111#16, 0b001#3, 0x0000#16) := by decide

/-- 0x3600, ST R3, #0 stores over the next instruction; COND is kept. -/
theorem test_st_next_word :
    stored 0x3001#16 (vec0 0x3600#16 [(3#3, 0xF025#16)]) = some (0xF025#16, 0b010#3, 0x3001#16) := by decide

/-- 0x6041, base 0xFFFF plus 1. -/
theorem test_ldr_wraps :
    result 0#3 (vec 0x3000#16 0x6041#16 [(1#3, 0xFFFF#16)] [(0x0000#16, 0x2222#16)]) = some (0x2222#16, 0b001#3, 0x3001#16) := by decide

/-- 0x6240, the base is the destination. -/
theorem test_ldr_through_itself :
    result 1#3 (vec 0x3000#16 0x6240#16 [(1#3, 0x4000#16)] [(0x4000#16, 0x0005#16)]) = some (0x0005#16, 0b001#3, 0x3001#16) := by decide

/-- 0x7442, STR R2, R1, #2. -/
theorem test_str :
    stored 0x4002#16 (vec0 0x7442#16 [(1#3, 0x4000#16), (2#3, 0xBEEF#16)]) = some (0xBEEF#16, 0b010#3, 0x3001#16) := by decide

/-- 0xA001. -/
theorem test_ldi :
    result 0#3 (vec 0x3000#16 0xA001#16 [] [(0x3002#16, 0x4000#16), (0x4000#16, 0x0042#16)]) = some (0x0042#16, 0b001#3, 0x3001#16) := by decide

/-- 0xA001 through a pointer to KBSR, byte 0x61 pending: the second access is intercepted. -/
theorem test_ldi_status :
    (stepped ((vec 0x3000#16 0xA001#16 [] [(0x3002#16, 0xFE00#16)]).setKq [0x61#8])).map
      (fun t => (t.reg 0#3, t.cond, t.peek 0xFE00#16, t.peek 0xFE02#16, t.kq)) = some (0x8000#16, 0b100#3, 0x8000#16, 0x0061#16, []) := by decide

/-- 0xB201, the pointer points at itself. -/
theorem test_sti_over_its_pointer :
    stored 0x3002#16 (vec 0x3000#16 0xB201#16 [(1#3, 0x1234#16)] [(0x3002#16, 0x3002#16)]) = some (0x1234#16, 0b010#3, 0x3001#16) := by decide

/-- 0xE0FF at 0x8F00. -/
theorem test_lea_sets_flags :
    result 0#3 (vec 0x8F00#16 0xE0FF#16 [] []) = some (0x9000#16, 0b100#3, 0x8F01#16) := by decide

/-- 0xE000 at 0xFFFF. -/
theorem test_lea_wraps :
    result 0#3 (vec 0xFFFF#16 0xE000#16 [(0#3, 0x0001#16)] []) = some (0x0000#16, 0b010#3, 0x0000#16) := by decide

/-- Part 2.4, the masks against COND = NEGATIVE, target 0x3006. -/
theorem test_br_masks :
    ([0x0005#16, 0x0205#16, 0x0405#16, 0x0605#16, 0x0805#16, 0x0A05#16, 0x0C05#16, 0x0E05#16].map
      (fun w => (stepped ((vec0 w []).setCond 0b100#3)).map State.pc)) =
      [some 0x3001#16, some 0x3001#16, some 0x3001#16, some 0x3001#16, some 0x3006#16, some 0x3006#16, some 0x3006#16, some 0x3006#16] := by decide

/-- 0x05FD at 0x0001, the target wraps below 0. -/
theorem test_br_wraps :
    (stepped (vec 0x0001#16 0x05FD#16 [] [])).map State.pc = some 0xFFFF#16 := by decide

/-- 0xC1C0, RET. -/
theorem test_jmp :
    (stepped (vec0 0xC1C0#16 [(7#3, 0x3456#16)])).map State.pc = some 0x3456#16 := by decide

/-- 0x4C00, JSR #-1024. -/
theorem test_jsr :
    result 7#3 (vec0 0x4C00#16 []) = some (0x3001#16, 0b010#3, 0x2C01#16) := by decide

/-- 0x4080, JSRR R2. -/
theorem test_jsrr :
    result 7#3 (vec0 0x4080#16 [(2#3, 0x5000#16)]) = some (0x3001#16, 0b010#3, 0x5000#16) := by decide

/-- 0x41C0, JSRR R7 falls through. -/
theorem test_jsrr_r7 :
    result 7#3 (vec0 0x41C0#16 [(7#3, 0x5000#16)]) = some (0x3001#16, 0b010#3, 0x3001#16) := by decide

/-- 0xF020, byte 0xFF pending: zero-extended, POSITIVE. -/
theorem test_getc :
    (stepped ((vec0 0xF020#16 []).setKq [0xFF#8, 0x41#8])).map
      (fun t => (t.reg 0#3, t.reg 7#3, t.cond, t.pc, t.kq)) = some (0x00FF#16, 0x3001#16, 0b001#3, 0x3001#16, [0x41#8]) := by decide

/-- 0xF020, nothing pending: R7 is written and the instruction waits. -/
theorem test_getc_waits :
    (stepped (vec0 0xF020#16 [(0#3, 0x1234#16)])).map
      (fun t => (t.reg 0#3, t.reg 7#3, t.pc, t.busy, t.run)) = some (0x1234#16, 0x3001#16, 0x3001#16, .getc, .running) := by decide

/-- 0xF021, R0 = 0x1241. -/
theorem test_out :
    written (vec0 0xF021#16 [(0#3, 0x1241#16)]) = some ([0x41#8], 0x3001#16, 0x3001#16) := by decide

/-- 0xF022, the Word 0x0100 is no terminator and high bytes are ignored. -/
theorem test_puts :
    written (vec 0x3000#16 0xF022#16 [(0#3, 0x3010#16)]
      [(0x3010#16, 0x0141#16), (0x3011#16, 0x0100#16), (0x3012#16, 0x0042#16)]) = some ([0x41#8, 0x00#8, 0x42#8], 0x3001#16, 0x3001#16) := by decide +kernel

/-- 0xF022, the scan wraps from 0xFFFF to 0x0000. -/
theorem test_puts_wraps :
    written (vec 0x3000#16 0xF022#16 [(0#3, 0xFFFF#16)]
      [(0xFFFF#16, 0x0041#16), (0x0000#16, 0x0042#16)]) = some ([0x41#8, 0x42#8], 0x3001#16, 0x3001#16) := by decide +kernel

/-- 0xF023, byte 0x7A pending: the 19 prompt bytes, the echo, R0 and COND. -/
theorem test_in :
    (stepped ((vec0 0xF023#16 []).setKq [0x7A#8])).map (fun t => (t.outq, t.reg 0#3, t.cond, t.flushed)) =
      some ([0x45#8, 0x6E#8, 0x74#8, 0x65#8, 0x72#8, 0x20#8, 0x61#8, 0x20#8, 0x63#8, 0x68#8, 0x61#8, 0x72#8, 0x61#8, 0x63#8,
        0x74#8, 0x65#8, 0x72#8, 0x3A#8, 0x20#8, 0x7A#8], 0x007A#16, 0b001#3, 20) := by decide

/-- 0xF024, the packed string "Hi!". -/
theorem test_putsp :
    written (vec 0x3000#16 0xF024#16 [(0#3, 0x3010#16)]
      [(0x3010#16, 0x6948#16), (0x3011#16, 0x0021#16)]) = some ([0x48#8, 0x69#8, 0x21#8], 0x3001#16, 0x3001#16) := by decide +kernel

/-- 0xF024, a zero low byte is written and the string goes on. -/
theorem test_putsp_zero_low_byte :
    written (vec 0x3000#16 0xF024#16 [(0#3, 0x3010#16)] [(0x3010#16, 0x4100#16)]) =
      some ([0x00#8, 0x41#8], 0x3001#16, 0x3001#16) := by decide +kernel

/-- 0xF025, the notice and HALTED. -/
theorem test_halt :
    (stepped (vec0 0xF025#16 [])).map (fun t => (t.outq, t.run, t.reg 7#3, t.pc)) =
      some ([0x48#8, 0x41#8, 0x4C#8, 0x54#8, 0x0A#8], .halted, 0x3001#16, 0x3001#16) := by decide

/-- 0xF026, an undefined vector. -/
theorem test_trap_undefined :
    (aborted (vec0 0xF026#16 [])).map (fun a => (a.1, a.2.1, a.2.2.run, a.2.2.reg 7#3, a.2.2.pc)) =
      some (.unknownTrapVector, 0xF026#16, .fatal, 0x3001#16, 0x3001#16) := by decide

/-- 0x8FFF, R7 unchanged. -/
theorem test_rsv1000 :
    (aborted (vec0 0x8FFF#16 [])).map (fun a => (a.1, a.2.1, a.2.2.run, a.2.2.reg 7#3, a.2.2.pc)) =
      some (.decodeError, 0x8FFF#16, .fatal, 0x0000#16, 0x3001#16) := by decide

/-- 0xD000. -/
theorem test_rsv1101 :
    (aborted (vec0 0xD000#16 [])).map (fun a => (a.1, a.2.1, a.2.2.run, a.2.2.reg 7#3, a.2.2.pc)) =
      some (.decodeError, 0xD000#16, .fatal, 0x0000#16, 0x3001#16) := by decide

/-! The keyboard device and the cycle (parts 2.6 and 2.7). -/

/-- K1: a status read with no input clears the stored Word. -/
theorem test_k1 :
    (stepped (vec 0xFDFF#16 0x2000#16 [] [(0xFE00#16, 0x1234#16)])).map (fun t => (t.reg 0#3, t.cond, t.peek 0xFE00#16)) =
      some (0x0000#16, 0b010#3, 0x0000#16) := by decide

/-- K2: one of two bytes is latched, the other stays pending. -/
theorem test_k2 :
    (stepped ((vec 0xFDFF#16 0x2000#16 [] [(0xFE00#16, 0x1234#16)]).setKq [0x61#8, 0x62#8])).map
      (fun t => (t.reg 0#3, t.peek 0xFE02#16, t.kq)) = some (0x8000#16, 0x0061#16, [0x62#8]) := by decide

/-- K3: a read of KBDR consumes nothing. -/
theorem test_k3 :
    (stepped ((vec 0xFDFF#16 0x2002#16 [] [(0xFE02#16, 0x0061#16)]).setKq [0x62#8])).map (fun t => (t.reg 0#3, t.kq)) =
      some (0x0061#16, [0x62#8]) := by decide

/-- K7: a fetch at KBSR with a key pending is a DecodeError. -/
theorem test_k7 :
    (aborted ((State.reset.setPc 0xFE00#16).setKq [0x78#8])).map
      (fun a => (a.1, a.2.1, a.2.2.pc, a.2.2.peek 0xFE02#16)) = some (.decodeError, 0x8000#16, 0xFE01#16, 0x0078#16) := by decide

/-- K8: with none pending it is a no-operation. -/
theorem test_k8 :
    (stepped (State.reset.setPc 0xFE00#16)).map (fun t => (t.pc, t.run)) = some (0xFE01#16, .running) := by decide

/-- A host delivery made just before the look is seen by it (R36). -/
theorem test_delivery_ends_the_wait :
    (stepped { vec0 0xF020#16 [] with arrivals := plan [[0x41#8]] }).map (fun t => (t.reg 0#3, t.busy, t.arrivals)) =
      some (0x0041#16, .idle, plan []) := by decide

/-- D20, a host without end: a status read finds the next byte, and there is another one to come. -/
theorem test_steady_host :
    (stepped { vec 0xFDFF#16 0x2000#16 [] [] with arrivals := steady 0x61#8 }).map
      (fun t => (t.reg 0#3, t.peek 0xFE02#16, t.kq, (hostTurn t).kq)) = some (0x8000#16, 0x0061#16, [], [0x61#8]) := by decide

/-- The listed batches come first, then the round again and again (log 5; no vector of the spec). -/
theorem test_next_batch :
    upcoming 5 { soon := [[0x01#8]], after := .again [[0x02#8], [], [0x03#8]] } = [0x01#8, 0x02#8, 0x03#8, 0x02#8] := by decide

/-- A no-operation at 0xFFFF: pc wraps (S13). -/
theorem test_pc_wraps :
    (stepped (State.reset.setPc 0xFFFF#16)).map State.pc = some 0x0000#16 := by decide

/-- R42 with IMAGE = [0xF025]: before the first step. -/
theorem test_reset_table :
    (match createMachine defaultConfig (Vector.replicate 8 0x0000#16) 0x3000#16 [0xF025#16] [] .silent with
      | .ok s => some (s.pc, s.cond, s.run, s.mem)
      | .error _ => none) = some (0x3000#16, 0b010#3, .running, [(0x3000, 0xF025#16)]) := by decide

/-- State.reset is the machine of R42 at the defaults with an empty image. -/
theorem test_reset_is_created :
    createMachine defaultConfig (Vector.replicate 8 0x0000#16) 0x3000#16 [] [] .silent = .ok State.reset := rfl

/-- The host's placing: the very next step runs the placed Word (0x1021 is ADD R0, R0, #1). -/
theorem test_with_fetch_word :
    result 0#3 (State.reset.withFetchWord 16 0x1021) = some (0x0001#16, 0b001#3, 0x3001#16) := by decide

/-- R235: the bytes 30 00 F0 25 are ORIGIN 0x3000 and one image Word. -/
theorem test_image_file :
    imageOfFile [0x30#8, 0x00#8, 0xF0#8, 0x25#8] = some (0x3000#16, [0xF025#16]) := by decide

/-- Files outside the format (U10). -/
theorem test_image_file_refused :
    imageOfFile [0x30#8, 0x00#8, 0xF0#8] = none ∧ imageOfFile [] = none := by decide

/-! Witnesses: for each statement of Obligations.lean with hypotheses, a state and operands that meet them together. A
statement over an instruction's next state is met with the state the instruction answers. -/

/-- A state in which the next step runs a Word at 0x3000 with R0 = 0x3010, two bytes pending and the string "Hi" at 0x3010. -/
def busyDesk (w : Word) : State :=
  (vec 0x3000#16 w [(0#3, 0x3010#16)] [(0x3010#16, 0x0048#16), (0x3011#16, 0x0069#16)]).setKq [0x61#8, 0x62#8]

/-- The next state of an instruction, or the state itself where it has none (which no instruction of the model is). -/
def done (i : Instr) (s : State) : State :=
  match exec i s with
  | .next t => t
  | _ => s

/-- DecodeOfEncodeIsTheInstruction: operands at the ends of their fields; the last row on either side of the six vectors. -/
theorem test_witness_decode_of_encode :
    Config.wf defaultConfig = true ∧ ([.addImm 7#3 0#3 0b10000#5, .br 0b111#3 0x1FF#9, .trap 0xF#4 0x1F#8, .trap 0x0#4 0x26#8] : List Instr).all
      (Instr.wf defaultConfig) = true := by decide

/-- WordsDifferingInIgnoredBitsRunAlike: an ADD, a routine, and the fatal case. -/
theorem test_witness_ignored_bits :
    ([(0x1042#16, 0x105A#16), (0xF021#16, 0xFF21#16), (0x8000#16, 0x8FFF#16), (0xF026#16, 0xFF26#16)] : List (Word × Word)).all
      (fun p => decide (p.1 &&& ~~~ ignoredBits p.1 = p.2 &&& ~~~ ignoredBits p.1)) = true := by decide

/-- WordsDifferingInIgnoredBitsRunAlike, both outcomes: one instruction, and two fatal ones. -/
theorem test_witness_ignored_bits_outcomes :
    decode defaultConfig 0x1042#16 = decode defaultConfig 0x105A#16 ∧ decode defaultConfig 0x8000#16 ≠ decode defaultConfig 0x8FFF#16 ∧
      (fatalOf (decode defaultConfig 0x8000#16)).isSome ∧ (fatalOf (decode defaultConfig 0x8FFF#16)).isSome := by decide

/-- SetccFollowsTheSignOfTheRegister: each clause at the ends of its range. -/
theorem test_witness_setcc :
    ([0x0000#16, 0x0001#16, 0x7FFF#16, 0x8000#16, 0xFFFF#16] : List Word).map
      (fun v => (decide (v = 0x0000#16), decide (v.toInt < 0), decide (0 < v.toInt))) =
      [(true, false, false), (false, false, true), (false, false, true), (false, true, false), (false, true, false)] := by decide

/-- AStoredWordIsReadBack: an address next to KBSR, KBDR, and KBSR. -/
theorem test_witness_stored :
    (0xFE01#16 : Word) ≠ State.reset.cfg.kbsr ∧ State.reset.cfg.kbdr ≠ State.reset.cfg.kbsr ∧ (0xFE00#16 : Word) = State.reset.cfg.kbsr := by decide

/-- CanonicalMemoriesThatReadAlikeAreEqual: a memory with both ends of the address space listed. -/
theorem test_witness_canonical :
    Memory.wf [(0, 0x0001#16), (65535, 0xFFFF#16)] = true ∧ Memory.wf [(1, 0x0001#16), (0, 0x0001#16)] = false ∧ Memory.wf [(0, 0x0000#16)] = false := by decide

/-- AStatusReadWithInputLatchesTheOldestByte: bytes already pending, and a byte delivered just before the look. -/
theorem test_witness_status_with_input :
    State.reset.cfg.kbsr ≠ State.reset.cfg.kbdr ∧ (hostTurn (busyDesk 0x0000#16)).kq = 0x61#8 :: [0x62#8] ∧
      (hostTurn { State.reset with arrivals := plan [[0x63#8]] }).kq = 0x63#8 :: [] := by decide

/-- AStatusReadWithoutInputClearsTheStatus. -/
theorem test_witness_status_without_input :
    State.reset.cfg.kbsr ≠ State.reset.cfg.kbdr ∧ (hostTurn State.reset).kq = [] := by decide

/-- LoadPcRelative: an address next to KBSR, and KBSR. -/
theorem test_witness_ld :
    (State.reset.setPc 0xFE01#16).pc + sext 0#9 ≠ State.reset.cfg.kbsr ∧ (State.reset.setPc 0xFE01#16).pc + sext 0x1FF#9 = State.reset.cfg.kbsr := by decide

/-- LoadBaseOffset: an address next to KBSR, and KBSR. -/
theorem test_witness_ldr :
    (State.reset.setReg 1#3 0xFE00#16).reg 1#3 + sext 1#6 ≠ State.reset.cfg.kbsr ∧ (State.reset.setReg 1#3 0xFE00#16).reg 1#3 + sext 0#6 = State.reset.cfg.kbsr := by decide

/-- LoadIndirect: neither address KBSR; then the pointer to KBSR; then the pointer at KBSR. -/
theorem test_witness_ldi :
    let s := (State.reset.poke 0x3000#16 0x4000#16).poke 0x3001#16 0xFE00#16
    s.pc + sext 0#9 ≠ s.cfg.kbsr ∧ s.peek (s.pc + sext 0#9) ≠ s.cfg.kbsr ∧ s.pc + sext 1#9 ≠ s.cfg.kbsr ∧
      s.peek (s.pc + sext 1#9) = s.cfg.kbsr ∧ (s.setPc 0xFE00#16).pc + sext 0#9 = s.cfg.kbsr := by decide

/-- StoreIndirect: the pointer next to KBSR. -/
theorem test_witness_sti :
    (State.reset.setPc 0xFDFF#16).pc + sext 0#9 ≠ State.reset.cfg.kbsr := by decide

/-- AWordStoredAtAnLeaAddressReloadsUnchanged: an address next to KBSR, and KBSR. -/
theorem test_witness_lea_reload :
    (State.reset.setPc 0xFDFF#16).pc + sext 0#9 ≠ State.reset.cfg.kbsr ∧ (State.reset.setPc 0xFDFF#16).pc + sext 1#9 = State.reset.cfg.kbsr := by decide

/-- BranchMasksNameTheFlagThatIsSet: all three flags. -/
theorem test_witness_branch_masks :
    State.reset.cfg.flagP = 0b001#3 ∧ State.reset.cfg.flagZ = 0b010#3 ∧ State.reset.cfg.flagN = 0b100#3 ∧
      ([0b001#3, 0b010#3, 0b100#3] : List (BitVec 3)).all (fun f => decide ((State.reset.setCond f).cond ∈ State.reset.cfg.flags)) = true := by decide

/-- TheLinkIsTheAddressAJumpThroughR7ReturnsTo: a call, a routine, an undefined vector. -/
theorem test_witness_link :
    ([.jsr 0x7FF#11, .jsrr 7#3, .getc, .out, .trap 0x0#4 0x26#8] : List Instr).all
      (fun i => Instr.wf State.reset.cfg i && isLinking i) = true := by decide

/-- The same: each of them answers a next state. -/
theorem test_witness_link_next :
    ∀ i : Instr, ∃ t, exec i State.reset = .next t := fun i => exec_next i State.reset

/-- GetcReadsOnePendingByte and InPromptsReadsAndEchoes. -/
theorem test_witness_pending :
    (hostTurn (busyDesk 0xF020#16)).kq = 0x61#8 :: [0x62#8] ∧ Config.wf (busyDesk 0xF020#16).cfg = true := by decide

/-- GetcAndInWaitWhileNothingIsPending. -/
theorem test_witness_nothing_pending :
    (hostTurn State.reset).kq = [] := by decide

/-- TheWaitEndsOnlyWithADelivery: both waits, without and with a delivery. -/
theorem test_witness_wait :
    let s := State.reset.setBusy .getc
    let u := State.reset.setBusy .inp
    s.run = .running ∧ s.busy = .getc ∧ u.run = .running ∧ u.busy = .inp ∧ (hostTurn s).kq = [] ∧ (hostTurn u).kq = [] ∧
      (hostTurn { s with arrivals := plan [[0x41#8]] }).kq = 0x41#8 :: [] ∧ (hostTurn { u with arrivals := plan [[0x41#8]] }).kq = 0x41#8 :: [] := by decide

/-- OutWritesTheLowByteOfR0 and HaltWritesItsNoticeAndStops: the parameters meet R7. -/
theorem test_witness_config :
    Config.wf State.reset.cfg = true := by decide

/-- PutsAndPutspRunTheirLoops, PUTS: from RUNNING, the loop over "Hi" reads three Words. -/
theorem test_witness_puts_loop :
    (busyDesk 0xF022#16).run = .running ∧
      ∃ t, StringLoop (fun w => [w.extractLsb' 0 8]) 3 ((busyDesk 0xF022#16).reg 0#3) (link (busyDesk 0xF022#16)) t := ⟨by decide, _, .again _ _ _ _ (by decide) (.again _ _ _ _ (by decide) (.exit _ _ (by decide)))⟩

/-- PutsAndPutspRunTheirLoops, PUTSP: from RUNNING, the empty string reads one Word. -/
theorem test_witness_putsp_loop :
    State.reset.run = .running ∧
      ∃ t, StringLoop (fun w => if w.extractLsb' 8 8 ≠ 0x00#8 then [w.extractLsb' 0 8, w.extractLsb' 8 8] else [w.extractLsb' 0 8])
        1 (State.reset.reg 0#3) (link State.reset) t := ⟨by decide, _, .exit _ _ (by decide)⟩

/-- A scan that starts `j` addresses below KBSR in memory without a zero Word, with no input, reads `j + 1` Words. -/
theorem loop_up_to_kbsr (bytes : Word → List Byte) (j : Nat) (hj : j < 65536) : ∀ s : State, (∀ a, s.peek a ≠ 0x0000#16) →
    s.kq = [] → s.arrivals = .silent → ∃ t, StringLoop bytes (j + 1) (s.cfg.kbsr - BitVec.ofNat 16 j) s t := by
  induction j with
  | zero =>
    intro s _ hk ha
    refine ⟨_, .exit _ _ ?_⟩
    have h0 : s.cfg.kbsr - BitVec.ofNat 16 0 = s.cfg.kbsr := by simp
    rw [h0, memRead_kbsr, keyboardPoll_clear s (by rw [hostTurn_of_silent s ha]; exact hk)]
    simp
  | succ j ih =>
    intro s hm hk ha
    have hne : s.cfg.kbsr - BitVec.ofNat 16 (j + 1) ≠ s.cfg.kbsr := by
      intro h
      have := congrArg BitVec.toNat h
      simp only [BitVec.toNat_sub, BitVec.toNat_ofNat] at this
      have := s.cfg.kbsr.isLt
      omega
    have hread := memRead_other s _ hne
    obtain ⟨t, h⟩ := ih (by omega) (consolePuts (bytes (s.peek (s.cfg.kbsr - BitVec.ofNat 16 (j + 1)))) s)
      (by simpa using hm) (by simpa using hk) (by simpa using ha)
    refine ⟨t, .again _ _ _ _ (by rw [hread]; exact hm _) ?_⟩
    have hnext : s.cfg.kbsr - BitVec.ofNat 16 (j + 1) + 1#16 = s.cfg.kbsr - BitVec.ofNat 16 j := by
      apply BitVec.eq_of_toNat_eq
      simp only [BitVec.toNat_add, BitVec.toNat_sub, BitVec.toNat_ofNat]
      omega
    rw [hread, hnext]
    simpa using h

/-- Memory filled from address 0 with an image, a string address in R0, and a host. -/
def filled (image : List Word) (start : Word) (pending : List Byte) (host : HostPlan) : State :=
  { State.reset.setReg 0#3 start with mem := placeImage image 0 [], kq := pending, arrivals := host }

/-- Such a memory reads as the image. -/
theorem filled_peek (image : List Word) (start : Word) (pending : List Byte) (host : HostPlan) (a : Word) :
    (link (filled image start pending host)).peek a = memGet (placeImage image 0 []) a.toNat := rfl

/-- An image of 65536 nonzero Words leaves no zero Word in it. -/
theorem filled_full (image : List Word) (hl : image.length = 65536) (hw : ∀ w ∈ image, w ≠ 0x0000#16) (start : Word)
    (pending : List Byte) (host : HostPlan) (a : Word) : (link (filled image start pending host)).peek a ≠ 0x0000#16 := by
  have := a.isLt
  rw [filled_peek, placeImage_get, dif_pos ⟨Nat.zero_le _, by omega⟩]
  exact hw _ (List.getElem_mem _)

/-- With no input, a scan from one above KBSR goes once round the whole memory: 65536 reads. -/
theorem filled_loop (bytes : Word → List Byte) (image : List Word) (hl : image.length = 65536)
    (hw : ∀ w ∈ image, w ≠ 0x0000#16) :
    ∃ t, StringLoop bytes 65536 ((filled image 0xFE01#16 [] .silent).reg 0#3) (link (filled image 0xFE01#16 [] .silent)) t := by
  have h : (0xFE01#16 : Word) = 0xFE00#16 - BitVec.ofNat 16 65535 := by decide
  have e : (filled image 0xFE01#16 [] .silent).reg 0#3 =
      (link (filled image 0xFE01#16 [] .silent)).cfg.kbsr - BitVec.ofNat 16 65535 := h
  rw [e]
  exact loop_up_to_kbsr bytes 65535 (by omega) _ (filled_full image hl hw _ _ _) rfl rfl

/-- A read at KBSR that finds a byte other than 0x00, where no Word of memory is zero: it is not zero, and neither is any Word
of memory after it. -/
theorem full_read (s : State) (b : Byte) (rest : List Byte) (hb : zext8 b ≠ 0x0000#16) (hm : ∀ a, s.peek a ≠ 0x0000#16)
    (hk : (hostTurn s).kq = b :: rest) :
    (memRead s s.cfg.kbsr).1 ≠ 0x0000#16 ∧ (∀ a, (memRead s s.cfg.kbsr).2.peek a ≠ 0x0000#16) ∧
      (memRead s s.cfg.kbsr).2.kq = rest ∧ (memRead s s.cfg.kbsr).2.arrivals = (hostTurn s).arrivals := by
  rw [memRead_kbsr, keyboardPoll_ready s b rest hk]
  have h : ∀ a, ((((hostTurn s).setKq rest).poke s.cfg.kbsr 0x8000#16).poke s.cfg.kbdr (zext8 b)).peek a ≠ 0x0000#16 := by
    intro a
    rw [peek_poke, peek_poke]
    split
    · exact hb
    · split
      · decide
      · exact hm a
  exact ⟨h _, h, rfl, rfl⟩

/-- With one byte pending, a scan that starts at KBSR reads it there, goes round, and ends at KBSR: 65537 reads. -/
theorem long_loop (bytes : Word → List Byte) (s : State) (b : Byte) (hb : zext8 b ≠ 0x0000#16)
    (hm : ∀ a, s.peek a ≠ 0x0000#16) (hk : s.kq = [b]) (ha : s.arrivals = .silent) :
    ∃ t, StringLoop bytes 65537 s.cfg.kbsr s t := by
  obtain ⟨h1, h2, h3, h4⟩ := full_read s b [] hb hm (by rw [hostTurn_of_silent s ha]; exact hk)
  rw [hostTurn_of_silent s ha] at h4
  obtain ⟨t, h⟩ := loop_up_to_kbsr bytes 65535 (by omega) (consolePuts (bytes (memRead s s.cfg.kbsr).1) (memRead s s.cfg.kbsr).2)
    (by simpa using h2) (by simpa using h3) (by simpa [ha] using h4)
  refine ⟨t, .again 65536 _ _ _ h1 ?_⟩
  have e : s.cfg.kbsr + 1#16 = s.cfg.kbsr - BitVec.ofNat 16 65535 := by
    apply BitVec.eq_of_toNat_eq
    simp only [BitVec.toNat_add, BitVec.toNat_sub, BitVec.toNat_ofNat]
    omega
  rw [e]
  simpa using h

/-- Where a byte other than 0x00 comes before every look and no Word of memory is zero, no read is zero, and it stays so. -/
theorem steady_read (s : State) (b : Byte) (hb : zext8 b ≠ 0x0000#16) (hm : ∀ a, s.peek a ≠ 0x0000#16) (hk : s.kq = [])
    (ha : s.arrivals = steady b) (a : Word) : (memRead s a).1 ≠ 0x0000#16 ∧ (∀ d, (memRead s a).2.peek d ≠ 0x0000#16) ∧
      (memRead s a).2.kq = [] ∧ (memRead s a).2.arrivals = steady b := by
  by_cases hc : a = s.cfg.kbsr
  · subst hc
    obtain ⟨h1, h2, h3, h4⟩ := full_read s b [] hb hm (by simp [hostTurn, nextBatch, ha, hk, steady])
    exact ⟨h1, h2, h3, h4.trans (by simp [hostTurn, nextBatch, ha, steady])⟩
  · rw [memRead_other s a hc]
    exact ⟨hm a, hm, hk, ha⟩

/-- There a string scan never ends. -/
theorem steady_endless (bytes : Word → List Byte) (b : Byte) (hb : zext8 b ≠ 0x0000#16) (n : Nat) (a : Word) (s t : State)
    (h : StringLoop bytes n a s t) : (∀ d, s.peek d ≠ 0x0000#16) → s.kq = [] → s.arrivals = steady b → False := by
  induction h with
  | exit a s e => intro hm hk ha; exact (steady_read s b hb hm hk ha a).1 e
  | again n a s t e rest ih =>
    intro hm hk ha
    obtain ⟨-, h2, h3, h4⟩ := steady_read s b hb hm hk ha a
    exact ih (by simpa using h2) (by simpa using h3) (by simpa using h4)

/-- PutsAndPutspRunTheirLoops at the end of the range of its lap clause: 65536 reads of memory full of the Word 0x0001. -/
theorem test_witness_longest_lap :
    ∃ s t, s.run = .running ∧ StringLoop (fun w => [w.extractLsb' 0 8]) 65536 (s.reg 0#3) (link s) t := by
  obtain ⟨t, h⟩ := filled_loop (fun w => [w.extractLsb' 0 8]) (List.replicate 65536 0x0001#16) List.length_replicate
    (fun w hw => by rw [List.eq_of_mem_replicate hw]; decide)
  exact ⟨_, t, rfl, h⟩

/-- PutsAndPutspRunTheirLoops past it: 65537 reads, the first of them at KBSR with a byte pending. -/
theorem test_witness_second_lap :
    ∃ s t, s.run = .running ∧ StringLoop (fun w => [w.extractLsb' 0 8]) 65537 (s.reg 0#3) (link s) t := by
  have hm := filled_full (List.replicate 65536 0x0001#16) List.length_replicate
    (fun w hw => by rw [List.eq_of_mem_replicate hw]; decide)
    0xFE00#16 [0x41#8] .silent
  obtain ⟨t, h⟩ := long_loop (fun w => [w.extractLsb' 0 8]) _ 0x41#8 (by decide) hm rfl rfl
  exact ⟨filled (List.replicate 65536 0x0001#16) 0xFE00#16 [0x41#8] .silent, t, rfl, h⟩

/-- AStringWithoutAZeroWordNeverEnds, both clauses: memory full of the Word 0x0001 and a host that always has a byte to deliver. -/
theorem test_witness_endless_string :
    ∃ s : State, s.run = .running ∧ (∀ n t, ¬ StringLoop (fun w => [w.extractLsb' 0 8]) n (s.reg 0#3) (link s) t) ∧
      ∀ n t, ¬ StringLoop (fun w => if w.extractLsb' 8 8 ≠ 0x00#8 then [w.extractLsb' 0 8, w.extractLsb' 8 8] else [w.extractLsb' 0 8])
        n (s.reg 0#3) (link s) t := by
  have hm := filled_full (List.replicate 65536 0x0001#16) List.length_replicate
    (fun w hw => by rw [List.eq_of_mem_replicate hw]; decide)
    0x0000#16 [] (steady 0x41#8)
  exact ⟨_, rfl, fun n t h => steady_endless _ 0x41#8 (by decide) n _ _ t h hm rfl rfl,
    fun n t h => steady_endless _ 0x41#8 (by decide) n _ _ t h hm rfl rfl⟩

/-- StringRoutinesWriteTheStringAndStop: the string "Hi". -/
theorem test_witness_strings :
    [0x0048#16, 0x0069#16].length < 65536 ∧ (∀ w ∈ [0x0048#16, 0x0069#16], w ≠ 0x0000#16) ∧
      StringAt ([0x0048#16, 0x0069#16] ++ [0x0000#16]) ((busyDesk 0xF022#16).reg 0#3) (busyDesk 0xF022#16) := by
  refine ⟨by decide, ?_, ?_⟩
  · intro w hw
    simp only [List.mem_cons, List.not_mem_nil, or_false] at hw
    rcases hw with rfl | rfl <;> decide
  · simp only [List.cons_append, List.nil_append, StringAt, and_true]
    decide +kernel

/-- AnUndefinedVectorIsFatalAfterTheLink: both ends of the vectors and both sides of the six. -/
theorem test_witness_undefined_vector :
    ([0x00#8, 0x1F#8, 0x26#8, 0xFF#8] : List (BitVec 8)).all (fun v => decide (v ∉ State.reset.cfg.vectors)) = true := by decide

/-- FetchReadsAtPcAndAdvances and AStoreToTheNextInstructionIsFetched: a pc next to KBSR, and the last address. -/
theorem test_witness_fetch :
    (State.reset.setPc 0xFDFF#16).pc ≠ State.reset.cfg.kbsr ∧ (State.reset.setPc 0xFFFF#16).pc ≠ State.reset.cfg.kbsr := by decide

/-- AStepRunsTheDecodedInstruction: an ADD, which ends in RUNNING. -/
theorem test_witness_step :
    let s := vec0 0x1042#16 []
    s.run = .running ∧ s.busy = .idle ∧ decode s.cfg (fetch s).1 = .addReg 0#3 1#3 2#3 ∧
      (done (.addReg 0#3 1#3 2#3) (fetch s).2).run ≠ .fatal := by decide

/-- AStepRunsTheDecodedInstruction: a reserved opcode, which ends in FATAL. -/
theorem test_witness_step_fatal :
    let s := vec0 0xD000#16 []
    s.run = .running ∧ s.busy = .idle ∧ decode s.cfg (fetch s).1 = .rsv1101 0x000#12 ∧
      (done (.rsv1101 0x000#12) (fetch s).2).run = .fatal := by decide

/-- NoStepLeavesHaltedOrFatal. -/
theorem test_witness_ended :
    (State.reset.setRun .halted).run = .halted ∧ (raiseFatal .decodeError 0x8000#16 State.reset).run = .fatal := by decide

/-- AFatalInstructionEndsTheRunWithItsReport: both conditions. -/
theorem test_witness_fatal :
    (vec0 0xF0FF#16 []).run = .running ∧ (vec0 0xF0FF#16 []).busy = .idle ∧
      fatalOf (decode (vec0 0xF0FF#16 []).cfg (fetch (vec0 0xF0FF#16 [])).1) = some { cond := .unknownTrapVector, word := 0xF0FF#16 } ∧
      fatalOf (decode (vec0 0xDFFF#16 []).cfg (fetch (vec0 0xDFFF#16 [])).1) = some { cond := .decodeError, word := 0xDFFF#16 } := by decide

/-- OnlyTheTwoFatalConditionsStopARunningCore: a step of each kind stops. -/
theorem test_witness_stops :
    (vec0 0x8000#16 []).run = .running ∧ (aborted (vec0 0x8000#16 [])).isSome = true ∧ (vec0 0xF026#16 []).run = .running ∧
      (aborted (vec0 0xF026#16 [])).isSome = true := by decide

/-- RunLeavesRunningOnlyByHaltOrAFatalCondition: HALT, a fatal instruction and another one, each from RUNNING. -/
theorem test_witness_run_transitions :
    State.reset.run = .running ∧ ([.halt, .trap 0x0#4 0x26#8, .rsv1000 0x000#12, .lea 0#3 0#9] : List Instr).map
      (fun i => (Instr.wf State.reset.cfg i, (done i State.reset).run)) = [(true, .halted), (true, .fatal), (true, .fatal), (true, .running)] := by decide

/-- EveryCreatedMachineMeetsTheInvariant and ResetGivesTheStateOfTheTable: an image that ends at the last address. -/
theorem test_witness_created :
    (createMachine defaultConfig (Vector.replicate 8 0xABCD#16) 0xFFFF#16 [0xF025#16] [0x41#8] (steady 0x42#8)).isOk = true := by decide

/-- ResetGivesTheStateOfTheTable, the refusals: an image one Word too long, and parameters that break R7. -/
theorem test_witness_created_refused :
    65536 < (0xFFFF#16 : Word).toNat + [0xF025#16, 0xF025#16].length ∧ Config.wf { defaultConfig with kbdr := 0xFE00#16 } = false := by decide

/-- EveryStepKeepsTheInvariant: the reset state meets it and steps. -/
theorem test_witness_step_inv :
    State.reset.Inv ∧ (stepped State.reset).isSome = true := ⟨⟨by decide, by decide, by decide, by decide, by decide, by decide⟩, by decide⟩

/-- FlagsFollowTheDestinationAndNothingElse: a kept COND, a written one, and a wait. -/
theorem test_witness_flags :
    flagDest (.jsr 0#11) = none ∧ flagDest (.lea 1#3 0#9) = some 1#3 ∧ flagDest .getc = some 0#3 ∧ (done .getc State.reset).busy = .getc ∧
      ([.jsr 0#11, .lea 1#3 0#9, .getc] : List Instr).all (Instr.wf State.reset.cfg) = true := by decide

/-- OnlyStoresChangeMemory: a step that changes a Word away from the device addresses. -/
theorem test_witness_stores :
    (stored 0x3002#16 (vec0 0x3601#16 [(3#3, 0xCAFE#16)])).map (fun r => r.1) = some 0xCAFE#16 ∧ (vec0 0x3601#16 [(3#3, 0xCAFE#16)]).peek 0x3002#16 ≠ 0xCAFE#16 ∧
      0x3002#16 ≠ (vec0 0x3601#16 []).cfg.kbsr ∧ 0x3002#16 ≠ (vec0 0x3601#16 []).cfg.kbdr := by decide

/-- InputBytesAreConsumedOnceAndInOrder and OutputBytesAreNeverTakenBack: a step that consumes a byte, with the output flushed. -/
theorem test_witness_streams :
    (stepped (busyDesk 0xF023#16)).map (fun t => t.kq) = some [0x62#8] ∧ (busyDesk 0xF023#16).flushed ≤ (busyDesk 0xF023#16).outq.length := by decide

/-- RoutinesTouchOnlyTheirOwnState: the six routines and an undefined vector. -/
theorem test_witness_routines :
    ([.getc, .out, .puts, .inp, .putsp, .halt] : List Instr).all (fun i => Instr.wf State.reset.cfg i && isRoutine i) = true ∧
      Instr.wf State.reset.cfg (.trap 0x0#4 0x26#8) = true := by decide

/-- RoutinesDoNotReadR1ToR6: both ends of R1 to R6. -/
theorem test_witness_routine_registers :
    isRoutine .puts = true ∧ (1#3 : Reg) ≠ 0#3 ∧ (1#3 : Reg) ≠ 7#3 ∧ (6#3 : Reg) ≠ 0#3 ∧ (6#3 : Reg) ≠ 7#3 ∧
      (State.reset.setBusy .getc).busy ≠ .idle ∧ (stepped (State.reset.setBusy .getc)).isSome = true := by decide

/-- ZeroedMemoryRunsNoOperationsForEver: the reset state. -/
theorem test_witness_zeroed :
    State.reset.run = .running ∧ State.reset.busy = .idle ∧ (∀ a, State.reset.peek a = 0x0000#16) ∧ State.reset.kq = [] ∧
      ∀ n, upcoming n State.reset.arrivals = [] := by
  refine ⟨rfl, rfl, fun _ => rfl, rfl, fun n => ?_⟩
  induction n with
  | zero => rfl
  | succ n ih => exact ih

end Sys2Proof.Machine.Slice0
end

section
/-! PROOFS. Sign extension as a signed value: `00_scope.md` R10. -/

namespace Sys2Proof.Machine

/-- R10, for every field no wider than a Word. -/
@[simp] theorem toInt_sext {n : Nat} (hn : n ≤ 16) (v : BitVec n) : (sext v).toInt = v.toInt :=
  BitVec.toInt_signExtend_of_le hn

/-- Settles O6: each of the four field widths is at most the 16 bits of a Word. -/
theorem signExtensionKeepsTheSignedValue : Obligations.SignExtensionKeepsTheSignedValue :=
  ⟨toInt_sext (by decide), toInt_sext (by decide), toInt_sext (by decide), toInt_sext (by decide)⟩

end Sys2Proof.Machine
end

section
/-! PROOFS. The two access primitives (R51): what a store leaves unchanged and what a read after it returns (R56), and the
status read that finds no input (R54). -/

namespace Sys2Proof.Machine

/-! What a store and a read keep. -/

theorem memWrite_keepsRegs (s : State) (a v : Word) : KeepsRegsBut [] s (memWrite a v s) := fun q _ => poke_reg s a v q

theorem memWrite_keepsInput (s : State) (a v : Word) : KeepsInput s (memWrite a v s) :=
  ⟨poke_kq s a v, poke_arrivals s a v⟩

theorem memWrite_keepsOutput (s : State) (a v : Word) : KeepsOutput s (memWrite a v s) :=
  ⟨poke_outq s a v, poke_flushed s a v⟩

theorem memWrite_keepsControl (s : State) (a v : Word) : KeepsControl s (memWrite a v s) :=
  ⟨poke_run s a v, poke_report s a v, poke_busy s a v, poke_cfg s a v⟩

theorem memRead_keepsRegs (s : State) (a : Word) : KeepsRegsBut [] s (memRead s a).2 := fun q _ => memRead_reg s a q

theorem memRead_keepsOutput (s : State) (a : Word) : KeepsOutput s (memRead s a).2 :=
  ⟨memRead_outq s a, memRead_flushed s a⟩

theorem memRead_keepsControl (s : State) (a : Word) : KeepsControl s (memRead s a).2 :=
  ⟨memRead_run s a, memRead_report s a, memRead_busy s a, memRead_cfg s a⟩

/-! A read after a store. -/

theorem memRead_memWrite_of_ne_kbsr (s : State) (a v : Word) (h : a ≠ s.cfg.kbsr) : (memRead (memWrite a v s) a).1 = v := by
  rw [memRead_other _ _ (show a ≠ (memWrite a v s).cfg.kbsr from h)]
  exact peek_poke_same s a v

/-- Memory does not touch the input side of the console. -/
theorem hostTurn_poke (s : State) (a v : Word) : hostTurn (s.poke a v) = (hostTurn s).poke a v := rfl

/-- What stood at KBSR before a poll is not seen after it: either case of the poll writes KBSR over. -/
theorem keyboardPoll_poke_kbsr_peek (s : State) (v b : Word) :
    (keyboardPoll (s.poke s.cfg.kbsr v)).peek b = (keyboardPoll s).peek b := by
  rcases keyboardPoll_cases s with ⟨c, later, hk, e⟩ | ⟨hk, e⟩
  · rw [e, keyboardPoll_ready (s.poke s.cfg.kbsr v) c later hk, hostTurn_poke]
    by_cases hb : b = s.cfg.kbsr <;> simp [peek_poke, hb]
  · rw [e, keyboardPoll_clear (s.poke s.cfg.kbsr v) hk, hostTurn_poke]
    by_cases hb : b = s.cfg.kbsr <;> simp [peek_poke, hb]

theorem memRead_memWrite_kbsr (s : State) (v : Word) :
    (memRead (memWrite s.cfg.kbsr v s) s.cfg.kbsr).1 = (memRead s s.cfg.kbsr).1 :=
  calc (memRead (memWrite s.cfg.kbsr v s) s.cfg.kbsr).1
    _ = (keyboardPoll (s.poke s.cfg.kbsr v)).peek s.cfg.kbsr := congrArg Prod.fst (memRead_kbsr (s.poke s.cfg.kbsr v))
    _ = (keyboardPoll s).peek s.cfg.kbsr := keyboardPoll_poke_kbsr_peek s v s.cfg.kbsr
    _ = (memRead s s.cfg.kbsr).1 := (congrArg Prod.fst (memRead_kbsr s)).symm

/-- Settles O8: a store is one write to MEM, and of the reads after it only the one at KBSR polls, which writes KBSR over
before the Word is read. -/
theorem aStoredWordIsReadBack : Obligations.AStoredWordIsReadBack := by
  intro s a v
  refine ⟨peek_poke s a v, memWrite_keepsRegs s a v, poke_pc s a v, poke_cond s a v, memWrite_keepsInput s a v,
    memWrite_keepsOutput s a v, memWrite_keepsControl s a v, memRead_memWrite_of_ne_kbsr s a v, ?_⟩
  rintro rfl
  exact memRead_memWrite_kbsr s v

/-! The status read that finds no input. -/

/-- R54: the read is a look at the input queue and the Word 0x0000 stored at KBSR. -/
theorem memRead_kbsr_clear (s : State) (h : (hostTurn s).kq = []) :
    memRead s s.cfg.kbsr = (0x0000#16, (hostTurn s).poke s.cfg.kbsr 0x0000#16) := by
  rw [memRead_kbsr, keyboardPoll_clear s h, peek_poke_same]

/-- Settles O11: the read stores 0x0000 at KBSR alone, and the look before it finds the queue empty. -/
theorem aStatusReadWithoutInputClearsTheStatus : Obligations.AStatusReadWithoutInputClearsTheStatus := by
  intro s hne hk r
  have hr : r = (0x0000#16, (hostTurn s).poke s.cfg.kbsr 0x0000#16) := memRead_kbsr_clear s hk
  have other (b : Word) (hb : b ≠ s.cfg.kbsr) : r.2.peek b = s.peek b := by
    rw [hr, peek_poke_other _ _ _ _ hb, hostTurn_peek]
  refine ⟨by rw [hr], by rw [hr, peek_poke_same], other _ hne.symm, by rw [hr, poke_kq, hk], memRead_keepsRegs s _,
    memRead_pc s _, memRead_cond s _, fun b hb => other b (List.ne_of_not_mem_cons hb), memRead_keepsOutput s _,
    memRead_keepsControl s _⟩

end Sys2Proof.Machine
end

section
/-! PROOFS. Decode and encode agree (R83, R90, R96, R97): the round trip from the instruction, the round trip from the Word,
and the well-formedness of what the decoder answers. Words are taken apart by their layouts (`layout_of`). -/

namespace Sys2Proof

theorem Laws.RoundTrip.every (i : Instr) : Laws.RoundTrip.Statement i :=
  match i with
  | .br nzp off9 => Laws.RoundTrip.br nzp off9
  | .addReg dr sr1 sr2 => Laws.RoundTrip.addReg dr sr1 sr2
  | .addImm dr sr1 imm5 => Laws.RoundTrip.addImm dr sr1 imm5
  | .ld dr off9 => Laws.RoundTrip.ld dr off9
  | .st sr off9 => Laws.RoundTrip.st sr off9
  | .jsr off11 => Laws.RoundTrip.jsr off11
  | .jsrr base => Laws.RoundTrip.jsrr base
  | .andReg dr sr1 sr2 => Laws.RoundTrip.andReg dr sr1 sr2
  | .andImm dr sr1 imm5 => Laws.RoundTrip.andImm dr sr1 imm5
  | .ldr dr base off6 => Laws.RoundTrip.ldr dr base off6
  | .str sr base off6 => Laws.RoundTrip.str sr base off6
  | .rsv1000 low => Laws.RoundTrip.rsv1000 low
  | .not dr sr => Laws.RoundTrip.not dr sr
  | .ldi dr off9 => Laws.RoundTrip.ldi dr off9
  | .sti sr off9 => Laws.RoundTrip.sti sr off9
  | .jmp base => Laws.RoundTrip.jmp base
  | .rsv1101 low => Laws.RoundTrip.rsv1101 low
  | .lea dr off9 => Laws.RoundTrip.lea dr off9
  | .getc => Laws.RoundTrip.getc
  | .out => Laws.RoundTrip.out
  | .puts => Laws.RoundTrip.puts
  | .inp => Laws.RoundTrip.inp
  | .putsp => Laws.RoundTrip.putsp
  | .halt => Laws.RoundTrip.halt
  | .trap ign vec => Laws.RoundTrip.trap ign vec

/-- Settles O1: the decoder answers each row on the layout the encoder writes for it; R7 keeps the six routine rows apart. -/
theorem decodeOfEncodeIsTheInstruction : Obligations.DecodeOfEncodeIsTheInstruction :=
  fun c i => Laws.RoundTrip.every i c

/-! Words that agree outside a mask, field by field. -/

theorem append_masked {m n : Nat} {x x' mx : BitVec m} {y y' my : BitVec n} (hx : x &&& ~~~mx = x' &&& ~~~mx)
    (hy : y &&& ~~~my = y' &&& ~~~my) : (x ++ y) &&& ~~~(mx ++ my) = (x' ++ y') &&& ~~~(mx ++ my) := by
  rw [BitVec.not_append, BitVec.and_append, BitVec.and_append, hx, hy]

theorem masked_allOnes {n : Nat} (x x' : BitVec n) : x &&& ~~~BitVec.allOnes n = x' &&& ~~~BitVec.allOnes n := by
  simp

/-! The ignored fields of R83: two Words of a layout that differ in them alone agree outside its mask. -/

/-- ADD and AND, register form: bits [4:3]. -/
theorem masked_operateReg (op : BitVec 4) (dr sr1 : BitVec 3) (mode : BitVec 1) (ign ign' : BitVec 2) (sr2 : BitVec 3) :
    (op ++ dr ++ sr1 ++ mode ++ ign ++ sr2 : Word) &&& ~~~0x0018#16 =
      (op ++ dr ++ sr1 ++ mode ++ ign' ++ sr2 : Word) &&& ~~~0x0018#16 :=
  append_masked (mx := 0#11 ++ BitVec.allOnes 2) (my := 0#3) (append_masked rfl (masked_allOnes ign ign')) rfl

/-- JSRR: bits [10:9] and [5:0]. -/
theorem masked_jsrr (op : BitVec 4) (flag : BitVec 1) (ign ign' : BitVec 2) (base : BitVec 3) (low low' : BitVec 6) :
    (op ++ flag ++ ign ++ base ++ low : Word) &&& ~~~0x063F#16 = (op ++ flag ++ ign' ++ base ++ low' : Word) &&& ~~~0x063F#16 :=
  append_masked (mx := 0#5 ++ BitVec.allOnes 2 ++ 0#3) (my := BitVec.allOnes 6)
    (append_masked (append_masked rfl (masked_allOnes ign ign')) rfl) (masked_allOnes low low')

/-- NOT: bits [5:0]. -/
theorem masked_not (op : BitVec 4) (dr sr : BitVec 3) (ign ign' : BitVec 6) :
    (op ++ dr ++ sr ++ ign : Word) &&& ~~~0x003F#16 = (op ++ dr ++ sr ++ ign' : Word) &&& ~~~0x003F#16 :=
  append_masked (mx := 0#10) (my := BitVec.allOnes 6) rfl (masked_allOnes ign ign')

/-- JMP: bits [11:9] and [5:0]. -/
theorem masked_jmp (op : BitVec 4) (ign ign' base : BitVec 3) (low low' : BitVec 6) :
    (op ++ ign ++ base ++ low : Word) &&& ~~~0x0E3F#16 = (op ++ ign' ++ base ++ low' : Word) &&& ~~~0x0E3F#16 :=
  append_masked (mx := 0#4 ++ BitVec.allOnes 3 ++ 0#3) (my := BitVec.allOnes 6)
    (append_masked (append_masked rfl (masked_allOnes ign ign')) rfl) (masked_allOnes low low')

/-- TRAP: bits [11:8]. -/
theorem masked_trap (op ign ign' : BitVec 4) (vec : BitVec 8) :
    (op ++ ign ++ vec : Word) &&& ~~~0x0F00#16 = (op ++ ign' ++ vec : Word) &&& ~~~0x0F00#16 :=
  append_masked (mx := 0#4 ++ BitVec.allOnes 4) (my := 0#8) (append_masked rfl (masked_allOnes ign ign')) rfl

/-! The seven rows a TRAP decodes to. -/

/-- A routine row is written with its own vector, which is the one decoded (R97). -/
theorem encode_decodeTrap (c : Config) (ign : BitVec 4) (vec : BitVec 8) :
    ∃ ign' : BitVec 4, encode c (decodeTrap c ign vec) = 0b1111#4 ++ ign' ++ vec := by
  unfold decodeTrap
  split_ifs with hGetc hOut hPuts hIn hPutsp hHalt
  · exact ⟨0b0000#4, by rw [hGetc]; rfl⟩
  · exact ⟨0b0000#4, by rw [hOut]; rfl⟩
  · exact ⟨0b0000#4, by rw [hPuts]; rfl⟩
  · exact ⟨0b0000#4, by rw [hIn]; rfl⟩
  · exact ⟨0b0000#4, by rw [hPutsp]; rfl⟩
  · exact ⟨0b0000#4, by rw [hHalt]; rfl⟩
  · exact ⟨ign, rfl⟩

/-- The last row is reached only past the six comparisons (R97). -/
theorem decodeTrap_wf (c : Config) (ign : BitVec 4) (vec : BitVec 8) : (decodeTrap c ign vec).wf c = true := by
  unfold decodeTrap
  split_ifs with hGetc hOut hPuts hIn hPutsp hHalt
  case neg => simp [Instr.wf, Config.vectors, hGetc, hOut, hPuts, hIn, hPutsp, hHalt]
  all_goals rfl

/-- Settles O2: a layout without ignored bits is written back whole; in the others the two Words differ in an ignored field
alone. -/
theorem encodeOfDecodeKeepsEveryNamedBit : Obligations.EncodeOfDecodeKeepsEveryNamedBit := by
  intro c w
  cases layout_of w with
  | addReg dr sr1 ign sr2 => rw [decode_addReg, ignored_addReg]; exact masked_operateReg 0b0001#4 dr sr1 0b0#1 0b00#2 ign sr2
  | andReg dr sr1 ign sr2 => rw [decode_andReg, ignored_andReg]; exact masked_operateReg 0b0101#4 dr sr1 0b0#1 0b00#2 ign sr2
  | jsrr ign base low => rw [decode_jsrr, ignored_jsrr]; exact masked_jsrr 0b0100#4 0b0#1 0b00#2 ign base 0b000000#6 low
  | not dr sr ign => rw [decode_not, ignored_not]; exact masked_not 0b1001#4 dr sr 0b000000#6 ign
  | jmp ign base low => rw [decode_jmp, ignored_jmp]; exact masked_jmp 0b1100#4 0b000#3 ign base 0b000000#6 low
  | trap ign vec =>
    obtain ⟨ign', h⟩ := encode_decodeTrap c ign vec
    rw [decode_trapWord, ignored_trap, h]
    exact masked_trap 0b1111#4 ign' ign vec
  | br | addImm | ld | st | jsr | andImm | ldr | str | rsv1000 | ldi | sti | rsv1101 | lea =>
    simp only [decode_br, decode_addImm, decode_ld, decode_st, decode_jsr, decode_andImm, decode_ldr, decode_str,
      decode_rsv1000, decode_ldi, decode_sti, decode_rsv1101, decode_lea, encode]

/-- Settles O4: only the last row has a condition, and the decoder answers it only for a vector that is none of the six. -/
theorem everyWordDecodesToAWellFormedInstruction : Obligations.EveryWordDecodesToAWellFormedInstruction := by
  intro c w
  cases layout_of w with
  | trap ign vec => rw [decode_trapWord]; exact decodeTrap_wf c ign vec
  | br | addReg | addImm | ld | st | jsr | jsrr | andReg | andImm | ldr | str | rsv1000 | not | ldi | sti | jmp | rsv1101 | lea =>
    simp only [decode_br, decode_addReg, decode_addImm, decode_ld, decode_st, decode_jsr, decode_jsrr, decode_andReg,
      decode_andImm, decode_ldr, decode_str, decode_rsv1000, decode_not, decode_ldi, decode_sti, decode_jmp,
      decode_rsv1101, decode_lea, Instr.wf]

end Sys2Proof
end

section
/-! PROOFS. The ConditionFlagUpdater by the signed value of the register: `40_instruction_cycle.md` R118. -/

namespace Sys2Proof.Machine

/-! The flag of a Word, by its signed value. -/

theorem flagOf_zero (c : Config) : flagOf c 0x0000#16 = c.flagZ := if_pos rfl

theorem flagOf_of_toInt_neg (c : Config) (v : Word) (h : v.toInt < 0) : flagOf c v = c.flagN := by
  have hz : v ≠ 0x0000#16 := by rintro rfl; exact absurd h (by decide)
  have hm : v.msb = true := by rw [BitVec.msb_eq_toInt, decide_eq_true h]
  rw [flagOf, if_neg hz, if_pos hm]

theorem flagOf_of_toInt_pos (c : Config) (v : Word) (h : 0 < v.toInt) : flagOf c v = c.flagP := by
  have hz : v ≠ 0x0000#16 := by rintro rfl; exact absurd h (by decide)
  have hm : ¬ v.msb = true := by rw [BitVec.msb_eq_toInt, decide_eq_true_eq]; exact h.not_gt
  rw [flagOf, if_neg hz, if_neg hm]

/-- The frame of `setcc`: "It writes COND and nothing else." -/
theorem setcc_keepsAllBut (s : State) (r : Reg) : KeepsAllBut [] s (setcc r s) :=
  ⟨fun q _ => setcc_reg s r q, setcc_peek s r, ⟨setcc_kq s r, setcc_arrivals s r⟩, ⟨setcc_outq s r, setcc_flushed s r⟩,
    ⟨setcc_run s r, setcc_report s r, setcc_busy s r, setcc_cfg s r⟩⟩

/-- Settles O7: COND becomes the flag of the register's Word, which its signed value decides. -/
theorem setccFollowsTheSignOfTheRegister : Obligations.SetccFollowsTheSignOfTheRegister := by
  intro s r
  refine ⟨fun hz => ?_, fun hn => ?_, fun hp => ?_, setcc_pc s r, setcc_keepsAllBut s r⟩
  · rw [setcc_cond, hz, flagOf_zero]
  · rw [setcc_cond, flagOf_of_toInt_neg _ _ hn]
  · rw [setcc_cond, flagOf_of_toInt_pos _ _ hp]

end Sys2Proof.Machine
end

section
/-! PROOFS. ADD, AND, NOT: `41_operate.md` R130 to R134. Each is one result written to dr with the flags set from it (R117),
so the common end `writeResult` is described once. -/

namespace Sys2Proof.Machine

/-! The common end of the flag-updating instructions (R117). -/

@[simp] theorem writeResult_reg_same (s : State) (r : Reg) (v : Word) : (writeResult r v s).reg r = v := by
  rw [writeResult_reg, if_pos rfl]

theorem writeResult_reg_other (s : State) (r q : Reg) (v : Word) (h : q ≠ r) : (writeResult r v s).reg q = s.reg q := by
  rw [writeResult_reg, if_neg h]

theorem writeResult_keepsAllBut (s : State) (r : Reg) (v : Word) : KeepsAllBut [r] s (writeResult r v s) :=
  ⟨fun q hq => writeResult_reg_other s r q v (List.ne_of_not_mem_cons hq), writeResult_peek s r v,
    ⟨writeResult_kq s r v, writeResult_arrivals s r v⟩, ⟨writeResult_outq s r v, writeResult_flushed s r v⟩,
    ⟨writeResult_run s r v, writeResult_report s r v, writeResult_busy s r v, writeResult_cfg s r v⟩⟩

/-- COND is the flag of what dr holds after the write, also where dr was a source (R118). -/
theorem writeResult_cond_eq_flagOf_reg (s : State) (r : Reg) (v : Word) :
    (writeResult r v s).cond = flagOf s.cfg ((writeResult r v s).reg r) := by
  rw [writeResult_cond, writeResult_reg_same]

/-- An instruction that ends in `writeResult` and touches nothing before it (R117). -/
theorem exists_next_of_eq_writeResult {o : Host.Outcome State Fault Refusal} {s : State} {dr : Reg} {v : Word}
    (h : o = .next (writeResult dr v s)) :
    ∃ t, o = .next t ∧ t.reg dr = v ∧ t.cond = flagOf s.cfg (t.reg dr) ∧ t.pc = s.pc ∧ KeepsAllBut [dr] s t :=
  ⟨writeResult dr v s, h, writeResult_reg_same s dr v, writeResult_cond_eq_flagOf_reg s dr v, writeResult_pc s dr v,
    writeResult_keepsAllBut s dr v⟩

/-! The meanings of R130 to R134, each as the result it writes. -/

theorem exec_addReg (dr sr1 sr2 : Reg) (s : State) :
    exec (.addReg dr sr1 sr2) s = .next (writeResult dr (s.reg sr1 + s.reg sr2) s) := rfl

theorem exec_addImm (dr sr1 : Reg) (imm5 : BitVec 5) (s : State) :
    exec (.addImm dr sr1 imm5) s = .next (writeResult dr (s.reg sr1 + sext imm5) s) := rfl

theorem exec_andReg (dr sr1 sr2 : Reg) (s : State) :
    exec (.andReg dr sr1 sr2) s = .next (writeResult dr (s.reg sr1 &&& s.reg sr2) s) := rfl

theorem exec_andImm (dr sr1 : Reg) (imm5 : BitVec 5) (s : State) :
    exec (.andImm dr sr1 imm5) s = .next (writeResult dr (s.reg sr1 &&& sext imm5) s) := rfl

theorem exec_not (dr sr : Reg) (s : State) : exec (.not dr sr) s = .next (writeResult dr (~~~ s.reg sr) s) := rfl

/-- Settles O12: the sources are read before the one write to dr, so dr may equal either of them. -/
theorem addRegisterForm : Obligations.AddRegisterForm := fun s dr sr1 sr2 ign =>
  ⟨decode_addReg s.cfg dr sr1 ign sr2, exists_next_of_eq_writeResult (exec_addReg dr sr1 sr2 s)⟩

/-- Settles O13: the sum with the sign-extended immediate is the one result written. -/
theorem addImmediateForm : Obligations.AddImmediateForm := fun s dr sr1 imm5 =>
  ⟨decode_addImm s.cfg dr sr1 imm5, exists_next_of_eq_writeResult (exec_addImm dr sr1 imm5 s)⟩

/-- Settles O14: as O12, with the conjunction of the sources as the result. -/
theorem andRegisterForm : Obligations.AndRegisterForm := fun s dr sr1 sr2 ign =>
  ⟨decode_andReg s.cfg dr sr1 ign sr2, exists_next_of_eq_writeResult (exec_andReg dr sr1 sr2 s)⟩

/-- Settles O15: as O13, with the conjunction as the result. -/
theorem andImmediateForm : Obligations.AndImmediateForm := fun s dr sr1 imm5 =>
  ⟨decode_andImm s.cfg dr sr1 imm5, exists_next_of_eq_writeResult (exec_andImm dr sr1 imm5 s)⟩

/-- Settles O16: the complement of the source is the one result written. -/
theorem notComplements : Obligations.NotComplements := fun s dr sr ign =>
  ⟨decode_not s.cfg dr sr ign, exists_next_of_eq_writeResult (exec_not dr sr s)⟩

end Sys2Proof.Machine
end

section
/-! PROOFS. LD, LDR, LDI, ST, STR, STI, LEA: `42_load_store.md` R140 to R150. A load is MemRead and then the common end of
the flag-updating instructions, a store is one MemWrite; each is described once, and the indirect forms put a pointer read
before them. -/

namespace Sys2Proof.Machine

/-! Frames one after another. -/

theorem KeepsRegsBut.trans {rs rs' : List Reg} {s t u : State} (h : KeepsRegsBut rs s t) (h' : KeepsRegsBut rs' t u) :
    KeepsRegsBut (rs ++ rs') s u := fun q hq =>
  (h' q fun hm => hq (List.mem_append_right rs hm)).trans (h q fun hm => hq (List.mem_append_left rs' hm))

theorem KeepsOutput.trans {s t u : State} (h : KeepsOutput s t) (h' : KeepsOutput t u) : KeepsOutput s u :=
  ⟨h'.1.trans h.1, h'.2.trans h.2⟩

theorem KeepsControl.trans {s t u : State} (h : KeepsControl s t) (h' : KeepsControl t u) : KeepsControl s u := by
  obtain ⟨hrun, hreport, hbusy, hcfg⟩ := h
  obtain ⟨hrun', hreport', hbusy', hcfg'⟩ := h'
  exact ⟨hrun'.trans hrun, hreport'.trans hreport, hbusy'.trans hbusy, hcfg'.trans hcfg⟩

/-! The common end of the loads (R148, R149). -/

theorem loadFrom_eq_writeResult (a : Word) (dr : Reg) (s : State) :
    loadFrom a dr s = writeResult dr (memRead s a).1 (memRead s a).2 := rfl

/-- Away from KBSR a load only writes its result (R55). -/
theorem loadFrom_of_ne_kbsr (a : Word) (dr : Reg) (s : State) (h : a ≠ s.cfg.kbsr) :
    loadFrom a dr s = writeResult dr (s.peek a) s := by
  rw [loadFrom_eq_writeResult, memRead_other s a h]

@[simp] theorem loadFrom_reg_same (a : Word) (dr : Reg) (s : State) : (loadFrom a dr s).reg dr = (memRead s a).1 :=
  writeResult_reg_same _ dr _

@[simp] theorem loadFrom_pc (a : Word) (dr : Reg) (s : State) : (loadFrom a dr s).pc = s.pc := memRead_pc s a

/-- COND is the flag of the Word loaded, also where dr was the base (R148). -/
theorem loadFrom_cond_eq_flagOf_reg (a : Word) (dr : Reg) (s : State) :
    (loadFrom a dr s).cond = flagOf s.cfg ((loadFrom a dr s).reg dr) := by
  rw [loadFrom_eq_writeResult, writeResult_cond_eq_flagOf_reg, memRead_cfg]

theorem loadFrom_keepsRegsBut (a : Word) (dr : Reg) (s : State) : KeepsRegsBut [dr] s (loadFrom a dr s) :=
  (memRead_keepsRegs s a).trans (writeResult_keepsAllBut _ dr _).1

theorem loadFrom_keepsOutput (a : Word) (dr : Reg) (s : State) : KeepsOutput s (loadFrom a dr s) :=
  memRead_keepsOutput s a

theorem loadFrom_keepsControl (a : Word) (dr : Reg) (s : State) : KeepsControl s (loadFrom a dr s) :=
  memRead_keepsControl s a

theorem loadFrom_keepsMemory_keepsInput (a : Word) (dr : Reg) (s : State) (h : a ≠ s.cfg.kbsr) :
    KeepsMemory s (loadFrom a dr s) ∧ KeepsInput s (loadFrom a dr s) := by
  obtain ⟨-, hmem, hin, -⟩ := writeResult_keepsAllBut s dr (s.peek a)
  rw [loadFrom_of_ne_kbsr a dr s h]
  exact ⟨hmem, hin⟩

/-- The write to dr leaves memory and the input side as the read left them. -/
theorem loadFrom_afterRead (a : Word) (dr : Reg) (s : State) : AfterRead a s (loadFrom a dr s) :=
  ⟨writeResult_peek _ dr _, rfl, rfl, loadFrom_keepsMemory_keepsInput a dr s⟩

/-- An instruction that is one load (R140, R142). -/
theorem exists_next_of_eq_loadFrom {o : Host.Outcome State Fault Refusal} {s : State} {a : Word} {dr : Reg}
    (h : o = .next (loadFrom a dr s)) :
    ∃ t, o = .next t ∧ t.reg dr = (memRead s a).1 ∧ (a ≠ s.cfg.kbsr → t.reg dr = s.peek a) ∧
      t.cond = flagOf s.cfg (t.reg dr) ∧ t.pc = s.pc ∧ KeepsRegsBut [dr] s t ∧ AfterRead a s t ∧
      KeepsOutput s t ∧ KeepsControl s t :=
  ⟨loadFrom a dr s, h, loadFrom_reg_same a dr s,
    fun ha => by rw [loadFrom_of_ne_kbsr a dr s ha, writeResult_reg_same],
    loadFrom_cond_eq_flagOf_reg a dr s, loadFrom_pc a dr s, loadFrom_keepsRegsBut a dr s, loadFrom_afterRead a dr s,
    loadFrom_keepsOutput a dr s, loadFrom_keepsControl a dr s⟩

/-! The common end of the stores (R56). -/

theorem memWrite_peek (s : State) (a v b : Word) : (memWrite a v s).peek b = if b = a then v else s.peek b :=
  peek_poke s a v b

theorem memWrite_keepsMemoryBut (s : State) (a v : Word) : KeepsMemoryBut [a] s (memWrite a v s) :=
  fun b hb => peek_poke_other s a v b (List.ne_of_not_mem_cons hb)

/-- An instruction that is one store (R141, R143). -/
theorem exists_next_of_eq_memWrite {o : Host.Outcome State Fault Refusal} {s : State} {a v : Word}
    (h : o = .next (memWrite a v s)) :
    ∃ t, o = .next t ∧ (∀ b, t.peek b = if b = a then v else s.peek b) ∧
      t.cond = s.cond ∧ t.pc = s.pc ∧ KeepsRegsBut [] s t ∧ KeepsInput s t ∧ KeepsOutput s t ∧ KeepsControl s t :=
  ⟨memWrite a v s, h, memWrite_peek s a v, poke_cond s a v, poke_pc s a v, memWrite_keepsRegs s a v,
    memWrite_keepsInput s a v, memWrite_keepsOutput s a v, memWrite_keepsControl s a v⟩

/-! The meanings of R140 to R146, each as the load, the store or the result it is. -/

theorem exec_lea (dr : Reg) (off9 : BitVec 9) (s : State) :
    exec (.lea dr off9) s = .next (writeResult dr (s.pc + sext off9) s) := rfl

theorem exec_ld (dr : Reg) (off9 : BitVec 9) (s : State) :
    exec (.ld dr off9) s = .next (loadFrom (s.pc + sext off9) dr s) := rfl

theorem exec_ldr (dr base : Reg) (off6 : BitVec 6) (s : State) :
    exec (.ldr dr base off6) s = .next (loadFrom (s.reg base + sext off6) dr s) := rfl

theorem exec_ldi (dr : Reg) (off9 : BitVec 9) (s : State) :
    exec (.ldi dr off9) s =
      .next (loadFrom (memRead s (s.pc + sext off9)).1 dr (memRead s (s.pc + sext off9)).2) := rfl

theorem exec_st (sr : Reg) (off9 : BitVec 9) (s : State) :
    exec (.st sr off9) s = .next (memWrite (s.pc + sext off9) (s.reg sr) s) := rfl

theorem exec_str (sr base : Reg) (off6 : BitVec 6) (s : State) :
    exec (.str sr base off6) s = .next (memWrite (s.reg base + sext off6) (s.reg sr) s) := rfl

theorem exec_sti (sr : Reg) (off9 : BitVec 9) (s : State) :
    exec (.sti sr off9) s =
      .next (memWrite (memRead s (s.pc + sext off9)).1 (s.reg sr) (memRead s (s.pc + sext off9)).2) := by
  rw [← memRead_reg s (s.pc + sext off9) sr]
  rfl

/-! LEA, the loads and the stores. -/

/-- Settles O17: the address itself is the one result written, with no access. -/
theorem loadEffectiveAddress : Obligations.LoadEffectiveAddress := fun s dr off9 =>
  ⟨decode_lea s.cfg dr off9, exists_next_of_eq_writeResult (exec_lea dr off9 s)⟩

/-- Settles O18: one load from the pc-relative address. -/
theorem loadPcRelative : Obligations.LoadPcRelative := fun s dr off9 =>
  ⟨decode_ld s.cfg dr off9, exists_next_of_eq_loadFrom (exec_ld dr off9 s)⟩

/-- Settles O19: one load from base plus offset; the base is read before dr is written, so dr may equal it. -/
theorem loadBaseOffset : Obligations.LoadBaseOffset := fun s dr base off6 =>
  ⟨decode_ldr s.cfg dr base off6, exists_next_of_eq_loadFrom (exec_ldr dr base off6 s)⟩

/-- Settles O20: a load in the state the pointer read leaves, which is the first state when the pointer is not at KBSR. -/
theorem loadIndirect : Obligations.LoadIndirect := by
  intro s dr off9
  refine ⟨decode_ldi s.cfg dr off9, ?_⟩
  intro a p
  refine ⟨loadFrom p.1 dr p.2, exec_ldi dr off9 s, loadFrom_reg_same p.1 dr p.2, ?_,
    (loadFrom_pc p.1 dr p.2).trans (memRead_pc s a), (memRead_keepsRegs s a).trans (loadFrom_keepsRegsBut p.1 dr p.2),
    loadFrom_afterRead p.1 dr p.2, (memRead_keepsOutput s a).trans (loadFrom_keepsOutput p.1 dr p.2),
    (memRead_keepsControl s a).trans (loadFrom_keepsControl p.1 dr p.2), fun ha => ?_⟩
  · rw [loadFrom_cond_eq_flagOf_reg, memRead_cfg]
  · have hp : p = (s.peek a, s) := memRead_other s a ha
    rw [hp]
    refine ⟨rfl, rfl, fun hd => ⟨?_, loadFrom_keepsMemory_keepsInput (s.peek a) dr s hd⟩⟩
    rw [loadFrom_of_ne_kbsr _ dr s hd, writeResult_reg_same]

/-- Settles O21: one store at the pc-relative address. -/
theorem storePcRelative : Obligations.StorePcRelative := fun s sr off9 =>
  ⟨decode_st s.cfg sr off9, exists_next_of_eq_memWrite (exec_st sr off9 s)⟩

/-- Settles O22: one store at base plus offset, also of the base itself. -/
theorem storeBaseOffset : Obligations.StoreBaseOffset := fun s sr base off6 =>
  ⟨decode_str s.cfg sr base off6, exists_next_of_eq_memWrite (exec_str sr base off6 s)⟩

/-- Settles O23: a store in the state the pointer read leaves, which is the first state when the pointer is not at KBSR. -/
theorem storeIndirect : Obligations.StoreIndirect := by
  intro s sr off9
  refine ⟨decode_sti s.cfg sr off9, ?_⟩
  intro a p
  refine ⟨memWrite p.1 (s.reg sr) p.2, exec_sti sr off9 s, memWrite_peek p.2 p.1 (s.reg sr), rfl, rfl,
    memRead_cond s a, memRead_pc s a, (memRead_keepsRegs s a).trans (memWrite_keepsRegs p.2 p.1 _),
    (memRead_keepsOutput s a).trans (memWrite_keepsOutput p.2 p.1 _),
    (memRead_keepsControl s a).trans (memWrite_keepsControl p.2 p.1 _), fun ha => ?_⟩
  have hp : p = (s.peek a, s) := memRead_other s a ha
  rw [hp]
  exact ⟨rfl, memWrite_keepsMemoryBut s (s.peek a) (s.reg sr), memWrite_keepsInput s (s.peek a) (s.reg sr)⟩

/-! A store and a load through the address register (R150). -/

/-- The offset 0 adds nothing (R10). -/
theorem add_sext_zero (v : Word) (n : Nat) : v + sext (0#n) = v := by
  rw [sext, BitVec.signExtend_eq_setWidth_of_msb_false BitVec.msb_zero, BitVec.setWidth_zero, BitVec.add_zero]

theorem exec_str_zero (sr base : Reg) (s : State) :
    exec (.str sr base 0#6) s = .next (memWrite (s.reg base) (s.reg sr) s) := by
  rw [exec_str, add_sext_zero]

theorem exec_ldr_zero (dr base : Reg) (s : State) : exec (.ldr dr base 0#6) s = .next (loadFrom (s.reg base) dr s) := by
  rw [exec_ldr, add_sext_zero]

/-- Settles O24: the store changes no register, so the load reads at the address stored to; away from KBSR it finds the
Word stored. -/
theorem aWordStoredAtAnLeaAddressReloadsUnchanged : Obligations.AWordStoredAtAnLeaAddressReloadsUnchanged := by
  intro s b r d off9
  let s1 := writeResult b (s.pc + sext off9) s
  let s2 := memWrite (s1.reg b) (s1.reg r) s1
  have hbase : s1.reg b = s.pc + sext off9 := writeResult_reg_same s b _
  have hload : (loadFrom (s2.reg b) d s2).reg d = (memRead s2 (s1.reg b)).1 := loadFrom_reg_same _ d s2
  refine ⟨s1, s2, loadFrom (s2.reg b) d s2, exec_lea b off9 s, exec_str_zero r b s1, exec_ldr_zero d b s2,
    fun ha => ?_, fun ha => ?_⟩
  · rw [hload]
    exact memRead_memWrite_of_ne_kbsr s1 (s1.reg b) (s1.reg r) (hbase ▸ ha)
  · rw [hload, hbase, ha]

end Sys2Proof.Machine
end

section
/-! PROOFS. BR, JMP, JSR and the link register: `43_control.md` R160 to R164. BR and JMP write pc alone, JSR after the link
write; what a linking instruction does after the link write leaves R7 as it is. -/

namespace Sys2Proof.Machine

/-! What a write to pc and the link write keep. -/

theorem setPc_keepsAllBut (s : State) (a : Word) : KeepsAllBut [] s (s.setPc a) :=
  ⟨fun q _ => setPc_reg s a q, setPc_peek s a, ⟨setPc_kq s a, setPc_arrivals s a⟩, ⟨setPc_outq s a, setPc_flushed s a⟩,
    ⟨setPc_run s a, setPc_report s a, setPc_busy s a, setPc_cfg s a⟩⟩

@[simp] theorem link_reg_seven (s : State) : (link s).reg 7#3 = s.pc := by rw [link_reg, if_pos rfl]

theorem link_reg_other (s : State) (q : Reg) (h : q ≠ 7#3) : (link s).reg q = s.reg q := by rw [link_reg, if_neg h]

theorem link_setPc_keepsAllBut (s : State) (a : Word) : KeepsAllBut [7#3] s ((link s).setPc a) :=
  ⟨fun q hq => link_reg_other s q (List.ne_of_not_mem_cons hq), link_peek s, ⟨link_kq s, link_arrivals s⟩,
    ⟨link_outq s, link_flushed s⟩, ⟨link_run s, link_report s, link_busy s, link_cfg s⟩⟩

/-! The meanings of R160 to R164, each as the target it writes to pc. -/

/-- A branch not taken writes pc back as it is. -/
theorem exec_br (nzp : BitVec 3) (off9 : BitVec 9) (s : State) :
    exec (.br nzp off9) s = .next (s.setPc (if nzp &&& s.cond ≠ 0b000#3 then s.pc + sext off9 else s.pc)) := by
  by_cases h : nzp &&& s.cond ≠ 0b000#3
  · simp only [exec, execBr, condHolds, decide_eq_true h, if_pos h, if_true, addrPc9]
  · simp only [exec, execBr, condHolds, decide_eq_false h, if_neg h, Bool.false_eq_true, if_false]
    rfl

theorem exec_jmp (base : Reg) (s : State) : exec (.jmp base) s = .next (s.setPc (s.reg base)) := rfl

theorem exec_jsr (off11 : BitVec 11) (s : State) :
    exec (.jsr off11) s = .next ((link s).setPc (s.pc + sext off11)) := rfl

/-- An instruction that only writes pc (R160, R162). -/
theorem exists_next_of_eq_setPc {o : Host.Outcome State Fault Refusal} {s : State} {a : Word} (h : o = .next (s.setPc a)) :
    ∃ t, o = .next t ∧ t.pc = a ∧ t.cond = s.cond ∧ KeepsAllBut [] s t :=
  ⟨s.setPc a, h, setPc_pc s a, setPc_cond s a, setPc_keepsAllBut s a⟩

/-- Settles O25: taken or not, BR is one write to pc. -/
theorem branchAddsTheOffsetIfAFlagMatches : Obligations.BranchAddsTheOffsetIfAFlagMatches := fun s nzp off9 =>
  ⟨decode_br s.cfg nzp off9, exists_next_of_eq_setPc (exec_br nzp off9 s)⟩

/-- Settles O27: JMP is one write to pc, of the base register's Word as it is. -/
theorem jumpGoesToTheBaseRegister : Obligations.JumpGoesToTheBaseRegister := fun s base ign ign' =>
  ⟨decode_jmp s.cfg ign base ign', exists_next_of_eq_setPc (exec_jmp base s)⟩

/-- Settles O28: the link write does not change pc, so the link and the target use the same one. -/
theorem jsrLinksAndBranches : Obligations.JsrLinksAndBranches := fun s off11 =>
  ⟨decode_jsr s.cfg off11, (link s).setPc (s.pc + sext off11), exec_jsr off11 s, link_reg_seven s,
    setPc_pc _ _, link_cond s, link_setPc_keepsAllBut s _⟩

/-! The registers the routines keep: the console reads write R0, the scans write none (R181). -/

theorem getcRead_keepsRegsBut (s : State) : KeepsRegsBut [0#3] s (getcRead s) := fun q hq => by
  cases h : (hostTurn s).kq with
  | nil => rw [getcRead_none s h]; rfl
  | cons b rest =>
    rw [getcRead_some s b rest h]
    exact writeResult_reg_other _ _ q _ (List.ne_of_not_mem_cons hq)

theorem inRead_keepsRegsBut (s : State) : KeepsRegsBut [0#3] s (inRead s) := fun q hq => by
  cases h : (hostTurn s).kq with
  | nil => rw [inRead_none s h]; rfl
  | cons b rest =>
    rw [inRead_some s b rest h]
    exact writeResult_reg_other _ _ q _ (List.ne_of_not_mem_cons hq)

theorem scanString_reg (f : Word → List Byte) (uw : Word → Busy) (n : Nat) (a : Word) (s : State) (q : Reg) :
    (scanString f uw n a s).reg q = s.reg q := by
  obtain ⟨hx, -⟩ := scan_keeps f uw n a s
  rw [State.reg, hx, State.reg]

theorem scanString_cond (f : Word → List Byte) (uw : Word → Busy) (n : Nat) (a : Word) (s : State) :
    (scanString f uw n a s).cond = s.cond := by
  obtain ⟨-, -, hcond, -⟩ := scan_keeps f uw n a s
  exact hcond

/-- After its link write no linking instruction writes R7, and only the two that read a character write COND (R163, R181). -/
theorem exec_linking_reg_seven_cond {i : Instr} {s t : State} (hw : i.wf s.cfg = true) (hl : isLinking i = true)
    (he : exec i s = .next t) :
    t.reg 7#3 = (link s).reg 7#3 ∧ (i ≠ .getc → i ≠ .inp → t.cond = (link s).cond) := by
  cases i with
  | jsr | jsrr | out => cases he; exact ⟨rfl, fun _ _ => rfl⟩
  | getc => cases he; exact ⟨getcRead_keepsRegsBut (link s) 7#3 (by decide), fun h => absurd rfl h⟩
  | inp =>
    cases he
    refine ⟨?_, fun _ h => absurd rfl h⟩
    rw [routineIn, inRead_keepsRegsBut _ 7#3 (by decide), consoleFlush_reg, consolePuts_reg]
  | puts | putsp => cases he; exact ⟨scanString_reg _ _ _ _ _ _, fun _ _ => scanString_cond _ _ _ _ _⟩
  | halt => cases he; simp [routineHalt]
  | trap ign vec =>
    cases he
    rw [dispatch_undefined vec _ (link s) (by simpa [Instr.wf] using hw)]
    exact ⟨rfl, fun _ _ => rfl⟩
  | br | addReg | addImm | ld | st | andReg | andImm | ldr | str | rsv1000 | not | ldi | sti | jmp | rsv1101 | lea =>
    exact absurd hl Bool.false_ne_true

/-- Settles O30: R7 still holds the link when the instruction has ended, and JMP R7 writes it to pc. -/
theorem theLinkIsTheAddressAJumpThroughR7ReturnsTo : Obligations.TheLinkIsTheAddressAJumpThroughR7ReturnsTo := by
  intro i s t hw hl he
  obtain ⟨hkeep, hcond⟩ := exec_linking_reg_seven_cond hw hl he
  have hlink : t.reg 7#3 = s.pc := hkeep.trans (link_reg_seven s)
  exact ⟨hlink, ⟨t.setPc (t.reg 7#3), exec_jmp 7#3 t, hlink⟩, hcond⟩

end Sys2Proof.Machine
end

section
/-! PROOFS. OUT and HALT: `44_trap.md` R174, R180. Each links, writes bytes to the console and flushes it, so that common
part is described once; HALT then writes RUN alone. -/

namespace Sys2Proof.Machine

/-! Bytes written and flushed after the link write (R170). -/

theorem link_keepsRegsBut (s : State) : KeepsRegsBut [7#3] s (link s) := fun q hq =>
  link_reg_other s q (List.ne_of_not_mem_cons hq)

theorem flush_puts_keepsRegs (s : State) (bs : List Byte) : KeepsRegsBut [] s (consoleFlush (consolePuts bs s)) := fun q _ => by
  rw [consoleFlush_reg, consolePuts_reg]

theorem flush_puts_keepsMemory (s : State) (bs : List Byte) : KeepsMemory s (consoleFlush (consolePuts bs s)) := fun a => by
  rw [consoleFlush_peek, consolePuts_peek]

theorem flush_puts_keepsInput (s : State) (bs : List Byte) : KeepsInput s (consoleFlush (consolePuts bs s)) :=
  ⟨consolePuts_kq bs s, consolePuts_arrivals bs s⟩

theorem flush_puts_keepsControl (s : State) (bs : List Byte) : KeepsControl s (consoleFlush (consolePuts bs s)) :=
  ⟨consolePuts_run bs s, consolePuts_report bs s, consolePuts_busy bs s, consolePuts_cfg bs s⟩

/-- The output gains the bytes and is flushed to its end, R7 gets pc, and the rest is kept. -/
theorem flush_puts_link (s t : State) (bs : List Byte) (ht : t = consoleFlush (consolePuts bs (link s))) :
    t.outq = s.outq ++ bs ∧ t.flushed = t.outq.length ∧ t.reg 7#3 = s.pc ∧ t.pc = s.pc ∧ t.cond = s.cond ∧
      KeepsRegsBut [7#3] s t ∧ KeepsMemory s t ∧ KeepsInput s t ∧ KeepsControl s t := by
  have hregs := flush_puts_keepsRegs (link s) bs
  subst ht
  exact ⟨consolePuts_outq bs (link s), rfl, (hregs 7#3 List.not_mem_nil).trans (link_reg_seven s), consolePuts_pc bs (link s),
    consolePuts_cond bs (link s), (link_keepsRegsBut s).trans hregs, flush_puts_keepsMemory (link s) bs,
    flush_puts_keepsInput (link s) bs, flush_puts_keepsControl (link s) bs⟩

/-! The meanings of R174 and R180, each as the bytes it writes. -/

/-- The link write is to R7, so R0 is still the caller's. -/
theorem exec_out (s : State) :
    exec .out s = .next (consoleFlush (consolePuts [(s.reg 0#3).extractLsb' 0 8] (link s))) := by
  rw [← link_reg_other s 0#3 (by decide)]
  rfl

theorem exec_halt (s : State) :
    exec .halt s = .next ((consoleFlush (consolePuts s.cfg.haltNotice (link s))).setRun .halted) := rfl

/-- R212: only a running state has a successor. -/
theorem step_ne_next_of_halted (s u : State) (h : s.run = .halted) : step s ≠ .next u := fun he => by
  obtain ⟨hrunning, -⟩ := step_inv s u he
  exact absurd (h.symm.trans hrunning) (by decide)

/-- Settles O34: OUT is one byte written and flushed after the link write. -/
theorem outWritesTheLowByteOfR0 : Obligations.OutWritesTheLowByteOfR0 := by
  intro s ign
  refine ⟨fun hc => ?_, _, exec_out s, flush_puts_link s _ _ rfl⟩
  obtain ⟨-, hout, -⟩ := decode_vec s.cfg ign hc
  exact hout

/-- Settles O39: HALT is the notice written and flushed after the link write, then a write to RUN alone. -/
theorem haltWritesItsNoticeAndStops : Obligations.HaltWritesItsNoticeAndStops := by
  intro s ign
  obtain ⟨houtq, hflushed, hlink, hpc, hcond, hregs, hmem, hin, -, hreport, hbusy, hcfg⟩ :=
    flush_puts_link s _ s.cfg.haltNotice rfl
  refine ⟨fun hc => ?_, _, exec_halt s, houtq, hflushed, setRun_run _ .halted, hlink, hpc, hcond, hregs, hmem, hin,
    hreport, hbusy, hcfg, fun u => step_ne_next_of_halted _ u (setRun_run _ .halted)⟩
  obtain ⟨-, -, -, -, -, hhalt⟩ := decode_vec s.cfg ign hc
  exact hhalt

end Sys2Proof.Machine
end

section
/-! PROOFS. What every step keeps: each statement is a relation that the primitive updates keep, carried over a step by
`Chain`: the bytes of the console (R36, R40, R41, R71), the Words of memory (R51), and the invariant of the machine. -/

namespace Sys2Proof.Machine

/-! The input side: only a look and the byte taken at it move it. -/

theorem inputMoves_chain : Chain InputMoves where
  refl _ := inputMoves_of_eq rfl rfl
  trans := InputMoves.trans
  setReg _ _ _ := inputMoves_of_eq rfl rfl
  setPc _ _ := inputMoves_of_eq rfl rfl
  setcc _ _ := inputMoves_of_eq rfl rfl
  setBusy _ _ := inputMoves_of_eq rfl rfl
  read := memRead_moves
  put _ _ := inputMoves_of_eq rfl rfl
  flush _ := inputMoves_of_eq rfl rfl
  turn := hostTurn_moves
  take s t b e := by
    obtain ⟨later, hk, rfl⟩ := (takeByte_eq_some s t b).mp e
    exact ⟨0, rfl, [b], by simp [upcoming, hk]⟩

/-- Settles O53: of the primitives a step is made of, a look adds its batch at the new end and only the byte taken there
leaves, at the old end. -/
theorem inputBytesAreConsumedOnceAndInOrder : Obligations.InputBytesAreConsumedOnceAndInOrder := fun s t e =>
  inputMoves_chain.step s t (fun _ _ _ _ => inputMoves_of_eq rfl rfl) (fun _ => inputMoves_of_eq rfl rfl)
    (fun _ _ _ => inputMoves_of_eq rfl rfl) e

/-! The output side. -/

/-- Bytes are appended, and a flush position within the output moves forward within it. -/
def OutputGrows (s t : State) : Prop :=
  s.outq <+: t.outq ∧ (s.flushed ≤ s.outq.length → s.flushed ≤ t.flushed ∧ t.flushed ≤ t.outq.length)

theorem outputGrows_of_eq {s t : State} (ho : t.outq = s.outq) (hf : t.flushed = s.flushed) : OutputGrows s t := by
  rw [OutputGrows, ho, hf]
  exact ⟨List.prefix_rfl, fun h => ⟨le_rfl, h⟩⟩

theorem OutputGrows.trans {s t u : State} (h : OutputGrows s t) (h' : OutputGrows t u) : OutputGrows s u := by
  obtain ⟨hp, hf⟩ := h
  obtain ⟨hp', hf'⟩ := h'
  refine ⟨hp.trans hp', fun hs => ?_⟩
  obtain ⟨hle, ht⟩ := hf hs
  obtain ⟨hle', hu⟩ := hf' ht
  exact ⟨hle.trans hle', hu⟩

theorem outputGrows_chain : Chain OutputGrows where
  refl _ := outputGrows_of_eq rfl rfl
  trans := OutputGrows.trans
  setReg _ _ _ := outputGrows_of_eq rfl rfl
  setPc _ _ := outputGrows_of_eq rfl rfl
  setcc _ _ := outputGrows_of_eq rfl rfl
  setBusy _ _ := outputGrows_of_eq rfl rfl
  read s a := outputGrows_of_eq (memRead_outq s a) (memRead_flushed s a)
  put s b := ⟨List.prefix_append s.outq [b], fun h => ⟨le_rfl, by simpa using Nat.le_succ_of_le h⟩⟩
  flush _ := ⟨List.prefix_rfl, fun h => ⟨h, le_rfl⟩⟩
  turn _ := outputGrows_of_eq rfl rfl
  take s t b e := by
    obtain ⟨later, -, rfl⟩ := (takeByte_eq_some s t b).mp e
    exact outputGrows_of_eq rfl rfl

theorem step_outputGrows (s t : State) (e : step s = .next t) : OutputGrows s t :=
  outputGrows_chain.step s t (fun _ _ _ _ => outputGrows_of_eq rfl rfl) (fun _ => outputGrows_of_eq rfl rfl)
    (fun _ _ _ => outputGrows_of_eq rfl rfl) e

/-- Settles O54: the only primitives that write the output side append one byte or flush to its end. -/
theorem outputBytesAreNeverTakenBack : Obligations.OutputBytesAreNeverTakenBack := step_outputGrows

/-! The Words of memory. -/

/-- The Word at an address away from the device registers is kept, and so is which addresses those are. -/
def KeepsWordAt (a : Word) (s t : State) : Prop :=
  t.cfg = s.cfg ∧ (a ≠ s.cfg.kbsr → a ≠ s.cfg.kbdr → t.peek a = s.peek a)

theorem KeepsWordAt.trans {a : Word} {s t u : State} (h : KeepsWordAt a s t) (h' : KeepsWordAt a t u) : KeepsWordAt a s u := by
  obtain ⟨hc, hw⟩ := h
  obtain ⟨hc', hw'⟩ := h'
  rw [hc] at hw'
  exact ⟨hc'.trans hc, fun h1 h2 => (hw' h1 h2).trans (hw h1 h2)⟩

theorem keepsWordAt_chain (a : Word) : Chain (KeepsWordAt a) where
  refl _ := ⟨rfl, fun _ _ => rfl⟩
  trans := KeepsWordAt.trans
  setReg _ _ _ := ⟨rfl, fun _ _ => rfl⟩
  setPc _ _ := ⟨rfl, fun _ _ => rfl⟩
  setcc _ _ := ⟨rfl, fun _ _ => rfl⟩
  setBusy _ _ := ⟨rfl, fun _ _ => rfl⟩
  read s b := ⟨memRead_cfg s b, memRead_peek_other s b a⟩
  put _ _ := ⟨rfl, fun _ _ => rfl⟩
  flush _ := ⟨rfl, fun _ _ => rfl⟩
  turn s := ⟨rfl, fun _ _ => hostTurn_peek s a⟩
  take s t b e := by
    obtain ⟨later, -, rfl⟩ := (takeByte_eq_some s t b).mp e
    exact ⟨rfl, fun _ _ => rfl⟩

/-- A step that fetches keeps the Word at an address the instruction does not store to; one that goes on with a routine
keeps every one. -/
theorem step_keepsWordAt (s t : State) (a : Word) (e : step s = .next t)
    (ha : s.busy = .idle → storeAddress (decode s.cfg (fetch s).1) (fetch s).2 ≠ some a) : KeepsWordAt a s t := by
  obtain ⟨-, ⟨hidle, hexec, -⟩ | ⟨-, rfl⟩⟩ := step_inv s t e
  · refine ((keepsWordAt_chain a).fetch s).trans ?_
    refine (keepsWordAt_chain a).exec _ _ t (fun u b v hb => ?_) (fun _ _ => ⟨rfl, fun _ _ => rfl⟩)
      (fun _ _ _ _ => ⟨rfl, fun _ _ => rfl⟩) hexec
    have hne : a ≠ b := by rintro rfl; exact ha hidle hb
    exact ⟨rfl, fun _ _ => peek_poke_other u b v a hne⟩
  · exact (keepsWordAt_chain a).resume s

/-- Settles O52: were the instruction's store not at that address, the Word there would have been kept. -/
theorem onlyStoresChangeMemory : Obligations.OnlyStoresChangeMemory := by
  intro s t a e hkbsr hkbdr hchanged
  by_contra hstore
  obtain ⟨-, hkept⟩ := step_keepsWordAt s t a e (fun hidle ha => hstore ⟨hidle, ha⟩)
  exact hchanged (hkept hkbsr hkbdr)

/-! RUN (R34). -/

/-- Settles O47: HALT is not fatal, so the two stops of `exec_run` exclude each other and RUNNING is left by no third. -/
theorem runLeavesRunningOnlyByHaltOrAFatalCondition : Obligations.RunLeavesRunningOnlyByHaltOrAFatalCondition := by
  intro i s t hw hrun hexec
  rw [exec_run i s t hw hexec, hrun]
  by_cases hhalt : i = .halt
  · subst hhalt
    decide
  · by_cases hf : (fatalOf i).isSome = true <;> simp [hhalt, hf]

/-! The invariant. -/

/-- What an instruction that is not fatal keeps of the invariant: the parameters and the report as they are, a COND that is
one of the flag values, and a canonical memory. -/
structure KeepsWellFormed (s t : State) : Prop where
  cfg : t.cfg = s.cfg
  report : t.report = s.report
  oneFlag : s.cond ∈ s.cfg.flags → t.cond ∈ s.cfg.flags
  memory : s.mem.wf = true → t.mem.wf = true

theorem KeepsWellFormed.trans {s t u : State} (h : KeepsWellFormed s t) (h' : KeepsWellFormed t u) : KeepsWellFormed s u where
  cfg := h'.cfg.trans h.cfg
  report := h'.report.trans h.report
  oneFlag hf := h.cfg ▸ h'.oneFlag (h.cfg.symm ▸ h.oneFlag hf)
  memory hm := h'.memory (h.memory hm)

theorem keepsWellFormed_chain : Chain KeepsWellFormed where
  refl _ := ⟨rfl, rfl, id, id⟩
  trans := KeepsWellFormed.trans
  setReg _ _ _ := ⟨rfl, rfl, id, id⟩
  setPc _ _ := ⟨rfl, rfl, id, id⟩
  setcc s r := ⟨rfl, rfl, fun _ => flagOf_mem s.cfg (s.reg r), id⟩
  setBusy _ _ := ⟨rfl, rfl, id, id⟩
  read s a := ⟨memRead_cfg s a, memRead_report s a, fun h => (memRead_cond s a).symm ▸ h, memRead_wf s a⟩
  put _ _ := ⟨rfl, rfl, id, id⟩
  flush _ := ⟨rfl, rfl, id, id⟩
  turn _ := ⟨rfl, rfl, id, id⟩
  take s t b e := by
    obtain ⟨later, -, rfl⟩ := (takeByte_eq_some s t b).mp e
    exact ⟨rfl, rfl, id, id⟩

theorem fetch_run (s : State) : (fetch s).2.run = s.run := run_chain.fetch s

theorem fetch_cfg (s : State) : (fetch s).2.cfg = s.cfg := cfg_chain.fetch s

theorem fetch_busy (s : State) : (fetch s).2.busy = s.busy := memRead_busy s s.pc

/-- The Word decoded by a step is an instruction of the machine (R94, R97). -/
theorem decoded_wf (s : State) : (decode s.cfg (fetch s).1).wf (fetch s).2.cfg = true := by
  rw [fetch_cfg]
  exact everyWordDecodesToAWellFormedInstruction s.cfg (fetch s).1

/-- HALT leaves no routine under way that was not. -/
theorem exec_halt_busy (s t : State) (e : exec .halt s = .next t) : t.busy = s.busy := by
  rw [exec_halt, Host.Outcome.next.injEq] at e
  rw [← e, setRun_busy, consoleFlush_busy, consolePuts_busy, link_busy]

/-- What RUN says after the instruction of an idle step (R34). -/
theorem exec_decoded_run (s t : State) (hrun : s.run = .running) (e : exec (decode s.cfg (fetch s).1) (fetch s).2 = .next t) :
    (t.run = .halted ↔ decode s.cfg (fetch s).1 = .halt) ∧
      (t.run = .fatal ↔ (fatalOf (decode s.cfg (fetch s).1)).isSome = true) :=
  runLeavesRunningOnlyByHaltOrAFatalCondition _ _ t (decoded_wf s) ((fetch_run s).trans hrun) e

/-- The part of the invariant that a chain of primitives keeps, over a step that ran no fatal instruction. -/
theorem step_keepsWellFormed (s t : State) (e : step s = .next t) : KeepsWellFormed s t := by
  obtain ⟨hrun, ⟨-, hexec, hnotFatal⟩ | ⟨-, rfl⟩⟩ := step_inv s t e
  · obtain ⟨-, hfatal⟩ := exec_decoded_run s t hrun hexec
    refine (keepsWellFormed_chain.fetch s).trans ?_
    exact keepsWellFormed_chain.exec _ _ t (fun u a v _ => ⟨rfl, rfl, id, poke_wf u a v⟩) (fun _ _ => ⟨rfl, rfl, id, id⟩)
      (fun hf => absurd (hfatal.mpr hf) hnotFatal) hexec
  · exact keepsWellFormed_chain.resume s

/-- After a step RUN is RUNNING, or the step ran HALT and no routine is under way (R34). -/
theorem step_run (s t : State) (e : step s = .next t) : t.run = .running ∨ (t.run = .halted ∧ t.busy = .idle) := by
  obtain ⟨hrun, ⟨hidle, hexec, hnotFatal⟩ | ⟨-, rfl⟩⟩ := step_inv s t e
  · obtain ⟨hhalted, -⟩ := exec_decoded_run s t hrun hexec
    cases hr : t.run with
    | running => exact .inl rfl
    | fatal => exact absurd hr hnotFatal
    | halted =>
      rw [hhalted.mp hr] at hexec
      exact .inr ⟨rfl, by rw [exec_halt_busy _ t hexec, fetch_busy, hidle]⟩
  · exact .inl ((run_chain.resume s).trans hrun)

/-- Settles O50: the chained part and the output are kept, a step starts without a report, and RUN after it says whether a
routine may be under way. -/
theorem everyStepKeepsTheInvariant : Obligations.EveryStepKeepsTheInvariant := by
  intro s t hinv e
  obtain ⟨hrun, -⟩ := step_inv s t e
  have hkeeps := step_keepsWellFormed s t e
  obtain ⟨-, hflush⟩ := step_outputGrows s t e
  have hreport : t.report = none := hkeeps.report.trans (hinv.report.mpr (by rw [hrun]; decide))
  refine ⟨⟨hkeeps.cfg ▸ hinv.config, hkeeps.cfg ▸ hkeeps.oneFlag hinv.oneFlag, hkeeps.memory hinv.memory,
    (hflush hinv.flush).2, ?_, ?_⟩, hkeeps.cfg⟩
  · obtain h | ⟨h, -⟩ := step_run s t e <;> simp [hreport, h]
  · obtain h | ⟨-, h⟩ := step_run s t e <;> simp [h]

end Sys2Proof.Machine
end

section
/-! PROOFS. The instruction cycle and the ends of a run: `40_instruction_cycle.md` R110 to R114, `60_exceptions.md` R200 to
R212. A fatal instruction is described once, as the report it raises. -/

namespace Sys2Proof.Machine

/-! Fetch and advance (R110 to R112). -/

@[simp] theorem fetch_pc (s : State) : (fetch s).2.pc = s.pc + 1#16 := congrArg (· + 1#16) (memRead_pc s s.pc)

@[simp] theorem fetch_cond (s : State) : (fetch s).2.cond = s.cond := memRead_cond s s.pc

@[simp] theorem fetch_reg (s : State) (q : Reg) : (fetch s).2.reg q = s.reg q := memRead_reg s s.pc q

theorem fetch_keepsOutput (s : State) : KeepsOutput s (fetch s).2 := memRead_keepsOutput s s.pc

theorem fetch_keepsControl (s : State) : KeepsControl s (fetch s).2 := memRead_keepsControl s s.pc

/-- Where pc is not KBSR the Word is the stored one and only pc moves (R111). -/
theorem fetch_of_ne_kbsr (s : State) (h : s.pc ≠ s.cfg.kbsr) : fetch s = (s.peek s.pc, s.setPc (s.pc + 1#16)) := by
  rw [fetch, memRead_other s s.pc h]

theorem fetch_afterRead (s : State) : AfterRead s.pc s (fetch s).2 := by
  refine ⟨setPc_peek _ _, rfl, rfl, fun h => ?_⟩
  rw [fetch_of_ne_kbsr s h]
  exact ⟨setPc_peek s _, rfl, rfl⟩

/-- Settles O42: a fetch is the read at pc and one write to pc. -/
theorem fetchReadsAtPcAndAdvances : Obligations.FetchReadsAtPcAndAdvances := fun s =>
  ⟨rfl, by rw [fetch_pc, BitVec.toNat_add]; rfl, fetch_cond s, fun q _ => fetch_reg s q, fetch_afterRead s,
    fetch_keepsOutput s, fetch_keepsControl s, fetch_of_ne_kbsr s⟩

/-- Settles O57: the offset 0 makes the store address pc, which ST does not change. -/
theorem aStoreToTheNextInstructionIsFetched : Obligations.AStoreToTheNextInstructionIsFetched := by
  intro s sr h
  refine ⟨memWrite s.pc (s.reg sr) s, by rw [exec_st, add_sext_zero], ?_⟩
  exact memRead_memWrite_of_ne_kbsr s s.pc (s.reg sr) h

/-! The step (R110, R114, R212). -/

theorem endStep_of_ne_fatal {t : State} (h : t.run ≠ .fatal) : endStep (.next t) = .next t := if_neg h

theorem endStep_of_fatal {t : State} (h : t.run = .fatal) : endStep (.next t) = .fault (fatalFault t) := if_pos h

/-- Settles O43: an idle step is the decoded instruction's outcome, with a next state at FATAL turned into the fault. -/
theorem aStepRunsTheDecodedInstruction : Obligations.AStepRunsTheDecodedInstruction := by
  intro s i hrun hidle hdecode t hexec
  rw [step_idle s hrun hidle, hdecode, hexec]
  exact ⟨endStep_of_ne_fatal, endStep_of_fatal⟩

theorem step_of_halted (s : State) (h : s.run = .halted) : step s = .fault .afterHalt := by rw [step, h]

theorem step_of_fatal (s : State) (h : s.run = .fatal) : step s = .fault .afterFatal := by rw [step, h]

/-- Settles O44: the step looks at RUN first. -/
theorem noStepLeavesHaltedOrFatal : Obligations.NoStepLeavesHaltedOrFatal := fun s => ⟨step_of_halted s, step_of_fatal s⟩

/-! The fatal instructions (R179, R190, R191). -/

/-- What a fatal instruction has done before it raises its condition: an undefined vector comes after the link write (D7). -/
def beforeFatal (r : FatalReport) (s : State) : State := if r.cond = .unknownTrapVector then link s else s

/-- The meaning of every fatal instruction. -/
theorem exec_of_fatalOf {i : Instr} {s : State} {r : FatalReport} (hw : i.wf s.cfg = true) (h : fatalOf i = some r) :
    exec i s = .next (raiseFatal r.cond r.word (beforeFatal r s)) := by
  cases i with
  | rsv1000 | rsv1101 => cases h; rfl
  | trap ign vec =>
    cases h
    exact congrArg Host.Outcome.next (dispatch_undefined vec _ (link s) (by simpa [Instr.wf] using hw))
  | br | addReg | addImm | ld | st | jsr | jsrr | andReg | andImm | ldr | str | not | ldi | sti | jmp | lea | getc | out
  | puts | inp | putsp | halt => cases h

theorem link_keepsAllBut (s : State) : KeepsAllBut [7#3] s (link s) := link_setPc_keepsAllBut s s.pc

/-- Settles O40: the six comparisons of the decoder and of the dispatch fail, so the link write and the condition are all. -/
theorem anUndefinedVectorIsFatalAfterTheLink : Obligations.AnUndefinedVectorIsFatalAfterTheLink := by
  intro s ign vec hvec
  obtain ⟨hregs, hmem, hin, hout, -, -, hbusy, hcfg⟩ := link_keepsAllBut s
  exact ⟨by rw [decode_trapWord, decodeTrap_other _ _ _ hvec], _, exec_of_fatalOf (by simpa [Instr.wf] using hvec) rfl, rfl,
    rfl, link_reg_seven s, rfl, rfl, hregs, hmem, hin, hout, hbusy, hcfg⟩

/-- Settles O41: a reserved opcode raises its condition and does nothing before it. -/
theorem reservedOpcodesRaiseDecodeError : Obligations.ReservedOpcodesRaiseDecodeError := fun s low =>
  ⟨⟨decode_rsv1000 s.cfg low, _, exec_of_fatalOf rfl rfl, rfl, rfl, rfl, rfl, fun _ _ => rfl, fun _ => rfl, ⟨rfl, rfl⟩,
      ⟨rfl, rfl⟩, rfl, rfl⟩,
    ⟨decode_rsv1101 s.cfg low, _, exec_of_fatalOf rfl rfl, rfl, rfl, rfl, rfl, fun _ _ => rfl, fun _ => rfl, ⟨rfl, rfl⟩,
      ⟨rfl, rfl⟩, rfl, rfl⟩⟩

/-- A step at a fatal Word stops with its condition. -/
theorem step_of_fatalOf {s : State} {r : FatalReport} (hrun : s.run = .running) (hidle : s.busy = .idle)
    (h : fatalOf (decode s.cfg (fetch s).1) = some r) :
    step s = .fault (fatalFault (raiseFatal r.cond r.word (beforeFatal r (fetch s).2))) := by
  rw [step_idle s hrun hidle, exec_of_fatalOf (decoded_wf s) h]
  exact endStep_of_fatal rfl

/-- Settles O45: the state the fault carries is the one after fetch, with the link write where the condition is an undefined
vector, and the report raised. -/
theorem aFatalInstructionEndsTheRunWithItsReport : Obligations.AFatalInstructionEndsTheRunWithItsReport := by
  rintro s ⟨c, w⟩ hrun hidle h
  obtain ⟨rfl, -⟩ := fatalOf_decode s.cfg (fetch s).1 ⟨c, w⟩ h
  have hstep := step_of_fatalOf hrun hidle h
  refine ⟨rfl, raiseFatal c (fetch s).1 (beforeFatal ⟨c, (fetch s).1⟩ (fetch s).2), hstep.trans ?_, rfl, rfl, ?_⟩
  · cases c <;> rfl
  have hread := fetch_afterRead s
  have hout := fetch_keepsOutput s
  cases c with
  | decodeError =>
    exact ⟨fetch_pc s, fetch_cond s, fun q _ => fetch_reg s q, fetch_reg s 7#3, hread, hout⟩
  | unknownTrapVector =>
    refine ⟨fetch_pc s, fetch_cond s, fun q hq => ?_, link_reg_seven _, hread, hout⟩
    exact (link_keepsRegsBut (fetch s).2 q hq).trans (fetch_reg s q)

/-! What stops a running core (R205). -/

/-- A step of a running core answers a next state, or it is the fault of the fatal Word it fetched. -/
theorem step_running_cases (s : State) (hrun : s.run = .running) : (∃ t, step s = .next t) ∨
    (s.busy = .idle ∧ ∃ r, fatalOf (decode s.cfg (fetch s).1) = some r) := by
  by_cases hidle : s.busy = .idle
  · obtain ⟨t, ht⟩ := exec_next (decode s.cfg (fetch s).1) (fetch s).2
    by_cases hf : t.run = .fatal
    · obtain ⟨-, hfatal⟩ := exec_decoded_run s t hrun ht
      exact .inr ⟨hidle, Option.isSome_iff_exists.mp (hfatal.mp hf)⟩
    · exact .inl ⟨t, by rw [step_idle s hrun hidle, ht, endStep_of_ne_fatal hf]⟩
  · exact .inl ⟨_, step_busy s hrun hidle⟩

/-- Settles O46: a step that does not answer a next state is the fault of a fatal Word, and those are the reserved opcodes
and the TRAPs with an undefined vector. -/
theorem onlyTheTwoFatalConditionsStopARunningCore : Obligations.OnlyTheTwoFatalConditionsStopARunningCore := by
  intro s hrun
  obtain ⟨t, ht⟩ | ⟨hidle, r, hr⟩ := step_running_cases s hrun
  · rw [ht]
    exact ⟨nofun, nofun⟩
  · rw [step_of_fatalOf hrun hidle hr]
    refine ⟨nofun, fun f hf => ⟨hidle, raiseFatal r.cond r.word (beforeFatal r (fetch s).2), ?_⟩⟩
    cases hf
    obtain ⟨c, w⟩ := r
    obtain ⟨rfl, ⟨rfl, hop, -⟩ | ⟨rfl, hop, hvec, -⟩⟩ := fatalOf_decode _ _ _ hr
    · exact .inl ⟨hop, rfl⟩
    · exact .inr ⟨hop, hvec, rfl⟩

end Sys2Proof.Machine
end

section
/-! PROOFS. The console read as a device and by the routines: the status read that finds a byte (R53), GETC and IN with a
byte pending and without (R39, R173, R176). The two routines differ in the output side alone, so what taking a byte does is
described once. -/

namespace Sys2Proof.Machine

/-! The status read that finds a byte. -/

/-- R53: the ready Word at KBSR, the oldest byte at KBDR, one byte consumed. -/
theorem memRead_kbsr_ready (s : State) (b : Byte) (rest : List Byte) (hne : s.cfg.kbsr ≠ s.cfg.kbdr)
    (h : (hostTurn s).kq = b :: rest) :
    memRead s s.cfg.kbsr =
      (0x8000#16, (((hostTurn s).setKq rest).poke s.cfg.kbsr 0x8000#16).poke s.cfg.kbdr (zext8 b)) := by
  rw [memRead_kbsr, keyboardPoll_ready s b rest h, peek_poke_other _ _ _ _ hne, peek_poke_same]

/-- Settles O10: the read stores at KBSR and KBDR alone, and takes the byte the look before it found. -/
theorem aStatusReadWithInputLatchesTheOldestByte : Obligations.AStatusReadWithInputLatchesTheOldestByte := by
  intro s b rest hne hk r
  have hr := memRead_kbsr_ready s b rest hne hk
  have other (a : Word) (ha : a ∉ [s.cfg.kbsr, s.cfg.kbdr]) : r.2.peek a = s.peek a := by
    simp only [List.mem_cons, List.not_mem_nil, or_false, not_or] at ha
    exact memRead_peek_other s _ a ha.1 ha.2
  refine ⟨congrArg Prod.fst hr, ?_, ?_, ?_, ?_, memRead_keepsRegs s _, memRead_pc s _, memRead_cond s _, other,
    memRead_keepsOutput s _, memRead_keepsControl s _⟩ <;> simp only [r, hr]
  · rw [peek_poke_other _ _ _ _ hne, peek_poke_same]
  · rw [peek_poke_same]
  · rfl
  · rfl

/-! What a routine's ConsoleGet does. -/

/-- The state after `b` was taken as the oldest byte: R0 and the flags hold it, no routine is under way, and besides these only
the two sides of the console may have changed. -/
structure ByteTaken (b : Byte) (rest : List Byte) (s t : State) : Prop where
  regZero : t.reg 0#3 = zext8 b
  cond : t.cond = flagOf s.cfg (zext8 b)
  kq : t.kq = rest
  arrivals : t.arrivals = (hostTurn s).arrivals
  busy : t.busy = .idle
  regs : KeepsRegsBut [0#3] s t
  pc : t.pc = s.pc
  memory : KeepsMemory s t
  run : t.run = s.run
  report : t.report = s.report
  cfg : t.cfg = s.cfg

/-- The end of both routines, whatever has been written and flushed before it. -/
theorem byteTaken_writeResult (s : State) (b : Byte) (rest : List Byte) (out : List Byte) (n : Nat) :
    ByteTaken b rest s (writeResult 0#3 (zext8 b)
      { (hostTurn s).setKq rest with outq := out, flushed := n, busy := .idle }) where
  regZero := writeResult_reg_same _ _ _
  cond := writeResult_cond _ _ _
  kq := rfl
  arrivals := rfl
  busy := rfl
  regs q hq := writeResult_reg_other _ _ q _ (List.ne_of_not_mem_cons hq)
  pc := rfl
  memory _ := rfl
  run := rfl
  report := rfl
  cfg := rfl

theorem getcRead_byteTaken {s : State} {b : Byte} {rest : List Byte} (h : (hostTurn s).kq = b :: rest) :
    ByteTaken b rest s (getcRead s) ∧ KeepsOutput s (getcRead s) := by
  rw [getcRead_some s b rest h]
  exact ⟨byteTaken_writeResult s b rest s.outq s.flushed, rfl, rfl⟩

/-- The echo of IN (D17) is written and flushed. -/
theorem inRead_byteTaken {s : State} {b : Byte} {rest : List Byte} (h : (hostTurn s).kq = b :: rest) :
    ByteTaken b rest s (inRead s) ∧ (inRead s).outq = s.outq ++ [b] ∧ (inRead s).flushed = (inRead s).outq.length := by
  rw [inRead_some s b rest h]
  exact ⟨byteTaken_writeResult s b rest (s.outq ++ [b]) (s.outq ++ [b]).length, rfl, rfl⟩

/-! The instructions: the link write comes first, and for IN the prompt. -/

theorem KeepsRegsBut.mono {rs rs' : List Reg} {s t : State} (h : KeepsRegsBut rs s t) (hsub : rs ⊆ rs') :
    KeepsRegsBut rs' s t := fun q hq => h q fun hm => hq (hsub hm)

/-- IN up to its ConsoleGet: the link and the flushed prompt. -/
def promptShown (s : State) : State := consoleFlush (consolePuts s.cfg.inPrompt (link s))

theorem exec_getc (s : State) : exec .getc s = .next (getcRead (link s)) := rfl

theorem exec_inp (s : State) : exec .inp s = .next (inRead (promptShown s)) := rfl

theorem hostTurn_promptShown_kq (s : State) : (hostTurn (promptShown s)).kq = (hostTurn s).kq := by
  rw [promptShown, hostTurn_consoleFlush, hostTurn_consolePuts, hostTurn_link]
  simp

theorem hostTurn_promptShown_arrivals (s : State) : (hostTurn (promptShown s)).arrivals = (hostTurn s).arrivals := by
  rw [promptShown, hostTurn_consoleFlush, hostTurn_consolePuts, hostTurn_link]
  simp

/-- Settles O31: GETC is the link write and one byte taken; the byte is zero-extended, so its flag is not NEGATIVE. -/
theorem getcReadsOnePendingByte : Obligations.GetcReadsOnePendingByte := by
  intro s ign b rest hk
  obtain ⟨htaken, hout⟩ := getcRead_byteTaken (s := link s) (b := b) (rest := rest) hk
  refine ⟨by rw [decode_trapWord]; exact if_pos rfl, _, exec_getc s, htaken.regZero, ?_, htaken.cond, fun hc => ?_, htaken.kq,
    htaken.arrivals, htaken.pc, ((link_keepsRegsBut s).trans htaken.regs).mono (by decide), htaken.memory, hout,
    htaken.run, htaken.report, htaken.cfg, htaken.busy⟩
  · exact (htaken.regs 7#3 (by decide)).trans (link_reg_seven s)
  · rw [htaken.cond]
    exact flagOf_zext8 s.cfg b hc

/-- Settles O38: IN is the link write, the prompt, and one byte taken with its echo behind the prompt. -/
theorem inPromptsReadsAndEchoes : Obligations.InPromptsReadsAndEchoes := by
  intro s ign b rest hk
  obtain ⟨houtq, -, hlink, hpc, -, hregs, hmem, -, hrun, hreport, -, hcfg⟩ := flush_puts_link s (promptShown s) _ rfl
  obtain ⟨htaken, hecho, hflushed⟩ := inRead_byteTaken ((hostTurn_promptShown_kq s).trans hk)
  refine ⟨fun hc => ?_, _, exec_inp s, by rw [hecho, houtq], hflushed, htaken.regZero,
    (htaken.regs 7#3 (by decide)).trans hlink, by rw [htaken.cond, hcfg], htaken.kq,
    htaken.arrivals.trans (hostTurn_promptShown_arrivals s), htaken.pc.trans hpc,
    (hregs.trans htaken.regs).mono (by decide), fun a => (htaken.memory a).trans (hmem a),
    htaken.run.trans hrun, htaken.report.trans hreport, htaken.cfg.trans hcfg, htaken.busy⟩
  obtain ⟨-, -, -, hin, -⟩ := decode_vec s.cfg ign hc
  exact hin

/-- Settles O32: with nothing pending both routines end the step at their ConsoleGet, after the link write and the prompt. -/
theorem getcAndInWaitWhileNothingIsPending : Obligations.GetcAndInWaitWhileNothingIsPending := by
  intro s hk
  constructor
  · refine ⟨_, exec_getc s, ?_⟩
    rw [getcRead_none (link s) hk]
    exact ⟨rfl, link_reg_seven s, link_keepsRegsBut s, rfl, rfl, fun _ => rfl, hk, rfl, rfl, rfl⟩
  · obtain ⟨houtq, hflushed, hlink, hpc, hcond, hregs, hmem, -, hrun, -⟩ := flush_puts_link s (promptShown s) _ rfl
    have hk' := (hostTurn_promptShown_kq s).trans hk
    refine ⟨_, exec_inp s, ?_⟩
    rw [inRead_none _ hk']
    exact ⟨rfl, hlink, hregs, hpc, hcond, hmem, hk', hrun, houtq, hflushed⟩

/-- A look that finds nothing leaves the wait under way. -/
theorem step_waiting_none {s : State} (hrun : s.run = .running) (hbusy : s.busy = .getc ∨ s.busy = .inp)
    (hk : (hostTurn s).kq = []) : step s = .next (hostTurn s) := by
  have hsame := setBusy_same (hostTurn s) s.busy rfl
  obtain h | h := hbusy <;> rw [step_busy s hrun (by rw [h]; decide), resumeRoutine, h] <;> rw [h] at hsame
  · exact congrArg Host.Outcome.next ((getcRead_none s hk).trans hsame)
  · exact congrArg Host.Outcome.next ((inRead_none s hk).trans hsame)

/-- Settles O33: the step of a waiting routine is its ConsoleGet again. -/
theorem theWaitEndsOnlyWithADelivery : Obligations.TheWaitEndsOnlyWithADelivery := by
  intro s hrun hbusy
  refine ⟨step_waiting_none hrun hbusy, fun b rest hk => ?_⟩
  obtain h | h := hbusy
  · obtain ⟨htaken, hout⟩ := getcRead_byteTaken hk
    refine ⟨getcRead s, ?_, htaken.busy, htaken.regZero, htaken.cond, htaken.kq, htaken.regs, htaken.pc, htaken.memory,
      htaken.run.trans hrun, fun _ => hout, fun hi => ?_⟩
    · rw [step_busy s hrun (by rw [h]; decide), resumeRoutine, h]
    · exact absurd (h.symm.trans hi) (by decide)
  · obtain ⟨htaken, hecho⟩ := inRead_byteTaken hk
    refine ⟨inRead s, ?_, htaken.busy, htaken.regZero, htaken.cond, htaken.kq, htaken.regs, htaken.pc, htaken.memory,
      htaken.run.trans hrun, fun hg => ?_, fun _ => hecho⟩
    · rw [step_busy s hrun (by rw [h]; decide), resumeRoutine, h]
    · exact absurd (h.symm.trans hg) (by decide)

end Sys2Proof.Machine
end

section
/-! PROOFS. PUTS and PUTSP: `44_trap.md` R175, R177, R178. The two routines differ in the bytes they write for a Word and in
the name of the routine under way; everything about their laps is proved once for any such pair. -/

namespace Sys2Proof.Machine

/-- A routine whose later steps are laps of one string scan (log 8): what it writes for a Word, and its name while it is
under way. -/
structure ScansInLaps (bytes : Word → List Byte) (underWay : Word → Busy) : Prop where
  ne_idle : ∀ a, underWay a ≠ .idle
  resume : ∀ a s, s.busy = underWay a → resumeRoutine s = scanString bytes underWay scanLap a s
  writes : ∀ w, bytes w ≠ []

theorem puts_scansInLaps : ScansInLaps putsBytes .puts where
  ne_idle _ := Busy.noConfusion
  resume a s h := by rw [resumeRoutine, h]; rfl
  writes _ := List.cons_ne_nil _ _

theorem putsp_scansInLaps : ScansInLaps putspBytes .putsp where
  ne_idle _ := Busy.noConfusion
  resume a s h := by rw [resumeRoutine, h]; rfl
  writes w := by unfold putspBytes; split <;> exact List.cons_ne_nil _ _

/-- PUTSP's bytes as R177 tests them. -/
theorem putspBytes_eq : putspBytes =
    fun w => if w.extractLsb' 8 8 ≠ 0x00#8 then [w.extractLsb' 0 8, w.extractLsb' 8 8] else [w.extractLsb' 0 8] := by
  funext w
  rw [ite_not]
  rfl

theorem setBusy_setBusy (s : State) (b b' : Busy) : (s.setBusy b).setBusy b' = s.setBusy b' := rfl

/-- A run of one step more is that step and the run from there. -/
theorem run_succ_of_step {s t : State} (h : step s = .next t) (k : Nat) :
    Host.Core.run Sys2Proof.core (k + 1) s = Host.Core.run Sys2Proof.core k t := by
  have hcore : Sys2Proof.core.step s = .next t := h
  simp only [Host.Core.run, hcore]

/-! The instructions: the link write keeps R0, so the scan starts at the caller's. -/

theorem exec_puts (s : State) :
    exec .puts s = .next (scanString putsBytes .puts scanLap (s.reg 0#3) (link s)) := by
  rw [← link_reg_other s 0#3 (by decide)]
  rfl

theorem exec_putsp (s : State) :
    exec .putsp s = .next (scanString putspBytes .putsp scanLap (s.reg 0#3) (link s)) := by
  rw [← link_reg_other s 0#3 (by decide)]
  rfl

theorem scanString_run (f : Word → List Byte) (uw : Word → Busy) (n : Nat) (a : Word) (s : State) :
    (scanString f uw n a s).run = s.run := run_chain.scan f uw n a s

section
variable {f : Word → List Byte} {uw : Word → Busy} (hf : ScansInLaps f uw)
include hf

/-- A step of a scan that is under way is its next lap. -/
theorem ScansInLaps.step_eq_lap {a : Word} {s : State} (hrun : s.run = .running) (hbusy : s.busy = uw a) :
    step s = .next (scanString f uw scanLap a s) := by
  rw [step_busy s hrun (hbusy ▸ hf.ne_idle a), hf.resume a s hbusy]

/-- The laps of a loop that ends reach its last state (R175, R177). -/
theorem ScansInLaps.run_of_stringLoop (n : Nat) {a : Word} {s t : State} (hrun : s.run = .running)
    (hloop : StringLoop f n a s t) :
    ∃ k, Host.Core.run Sys2Proof.core k (scanString f uw scanLap a s) = .next (t.setBusy .idle) := by
  induction n using Nat.strong_induction_on generalizing a s t with
  | _ n ih =>
    by_cases hn : n ≤ scanLap
    · exact ⟨0, congrArg Host.Outcome.next (scan_le hloop scanLap hn)⟩
    · obtain ⟨a', s', hscan, hrest⟩ := scan_lt (uw := uw) scanLap hloop (not_le.mp hn)
      have hrun' : (s'.setBusy (uw a')).run = .running := by rw [← hscan, scanString_run, hrun]
      have hlt : n - scanLap < n := Nat.sub_lt (by omega) (by decide)
      obtain ⟨k, hk⟩ := ih (n - scanLap) hlt hrun' (stringLoop_setBusy (uw a') hrest)
      rw [hscan]
      exact ⟨k + 1, (run_succ_of_step (hf.step_eq_lap hrun' rfl) k).trans hk⟩

end

/-- The two instructions against their loops (R175, R177), in one statement. -/
theorem ScansInLaps.exec_runs_loop {f : Word → List Byte} {uw : Word → Busy} (hf : ScansInLaps f uw)
    {o : Host.Outcome State Fault Refusal} {s : State} (ho : o = .next (scanString f uw scanLap (s.reg 0#3) (link s)))
    (n : Nat) (t : State) (hloop : StringLoop f n (s.reg 0#3) (link s) t) :
    ∃ u, o = .next u ∧ (n ≤ 65536 → u = t.setBusy .idle) ∧
      (s.run = .running → ∃ k, Host.Core.run Sys2Proof.core k u = .next (t.setBusy .idle)) :=
  ⟨_, ho, scan_le hloop scanLap, fun hrun => hf.run_of_stringLoop n hrun hloop⟩

/-- Settles O35: one step scans up to 65536 Words of the loop, and each later step the next ones. -/
theorem putsAndPutspRunTheirLoops : Obligations.PutsAndPutspRunTheirLoops := by
  intro s ign
  rw [← putspBytes_eq]
  refine ⟨fun hc => ?_, fun hc => ?_, puts_scansInLaps.exec_runs_loop (exec_puts s),
    putsp_scansInLaps.exec_runs_loop (exec_putsp s)⟩
  · obtain ⟨-, -, hputs, -⟩ := decode_vec s.cfg ign hc
    exact hputs
  · obtain ⟨-, -, -, -, hputsp, -⟩ := decode_vec s.cfg ign hc
    exact hputsp

/-! A scan that never ends (R178 (c), U18). -/

/-- Some laps of a scan from `s` on: it is under way in `v`, has written a byte for each Word of each lap, and has kept what
no scan writes. -/
structure LapsDone (laps : Nat) (s v : State) : Prop where
  busy : v.busy ≠ .idle
  run : v.run = .running
  output : s.outq <+: v.outq
  bytes : s.outq.length + laps * 65536 ≤ v.outq.length
  regs : KeepsRegsBut [] s v
  pc : v.pc = s.pc
  cond : v.cond = s.cond
  cfg : v.cfg = s.cfg
  memory : KeepsMemoryBut [s.cfg.kbsr, s.cfg.kbdr] s v

theorem LapsDone.trans {m n : Nat} {s u v : State} (h : LapsDone m s u) (h' : LapsDone n u v) : LapsDone (m + n) s v where
  busy := h'.busy
  run := h'.run
  output := h.output.trans h'.output
  bytes := by rw [Nat.add_mul, ← Nat.add_assoc]; exact (Nat.add_le_add_right h.bytes _).trans h'.bytes
  regs q hq := (h'.regs q hq).trans (h.regs q hq)
  pc := h'.pc.trans h.pc
  cond := h'.cond.trans h.cond
  cfg := h'.cfg.trans h.cfg
  memory a ha := (h'.memory a (h.cfg ▸ ha)).trans (h.memory a ha)

section
variable {f : Word → List Byte} {uw : Word → Busy} (hf : ScansInLaps f uw)
include hf

/-- One lap of a loop that never ends, and where the loop stands after it. -/
theorem ScansInLaps.lap_of_endless {a : Word} {s : State} (hrun : s.run = .running)
    (hend : ∀ n t, ¬ StringLoop f n a s t) :
    ∃ a', (scanString f uw scanLap a s).busy = uw a' ∧ LapsDone 1 s (scanString f uw scanLap a s) ∧
      ∀ n t, ¬ StringLoop f n a' (scanString f uw scanLap a s) t := by
  obtain ⟨a', s', hscan, hend', hout, hlen⟩ := scan_endless uw hf.writes scanLap a s hend
  obtain ⟨-, hpc, hcond, hcfg, hmem⟩ := scan_keeps f uw scanLap a s
  have hregs := scanString_reg f uw scanLap a s
  have hrun' := scanString_run f uw scanLap a s
  rw [hscan] at hpc hcond hcfg hmem hregs hrun' ⊢
  refine ⟨a', rfl, ⟨hf.ne_idle a', hrun'.trans hrun, hout, by simpa [scanLap] using hlen, fun q _ => hregs q, hpc,
    hcond, hcfg, hmem⟩, fun n t hloop => hend' n (t.setBusy s'.busy) ?_⟩
  have h := stringLoop_setBusy s'.busy hloop
  rwa [setBusy_setBusy, setBusy_same s' _ rfl] at h

/-- Any number of laps. -/
theorem ScansInLaps.laps_of_endless (k : Nat) {a : Word} {s : State} (hrun : s.run = .running)
    (hend : ∀ n t, ¬ StringLoop f n a s t) :
    ∃ v, Host.Core.run Sys2Proof.core k (scanString f uw scanLap a s) = .next v ∧ LapsDone (k + 1) s v := by
  induction k generalizing a s with
  | zero =>
    obtain ⟨-, -, hlap, -⟩ := hf.lap_of_endless hrun hend
    exact ⟨_, rfl, by simpa using hlap⟩
  | succ k ih =>
    obtain ⟨a', hbusy, hlap, hend'⟩ := hf.lap_of_endless hrun hend
    obtain ⟨v, hv, hlaps⟩ := ih hlap.run hend'
    exact ⟨v, (run_succ_of_step (hf.step_eq_lap hlap.run hbusy) k).trans hv, Nat.add_comm 1 (k + 1) ▸ hlap.trans hlaps⟩

end

/-- The two instructions on a loop without an end (R178 (c)), in one statement. -/
theorem ScansInLaps.exec_endless {f : Word → List Byte} {uw : Word → Busy} (hf : ScansInLaps f uw)
    {o : Host.Outcome State Fault Refusal} {s : State} (hrun : s.run = .running)
    (ho : o = .next (scanString f uw scanLap (s.reg 0#3) (link s)))
    (hend : ∀ n t, ¬ StringLoop f n (s.reg 0#3) (link s) t) :
    ∃ u, o = .next u ∧ ∀ k, ∃ v, Host.Core.run Sys2Proof.core k u = .next v ∧ v.busy ≠ .idle ∧
      v.run = .running ∧ s.outq <+: v.outq ∧ s.outq.length + (k + 1) * 65536 ≤ v.outq.length ∧ v.reg 7#3 = s.pc ∧
      KeepsRegsBut [7#3] s v ∧ v.pc = s.pc ∧ v.cond = s.cond ∧ KeepsMemoryBut [s.cfg.kbsr, s.cfg.kbdr] s v := by
  refine ⟨_, ho, fun k => ?_⟩
  obtain ⟨v, hv, h⟩ := hf.laps_of_endless k (s := link s) hrun hend
  exact ⟨v, hv, h.busy, h.run, h.output, h.bytes, (h.regs 7#3 List.not_mem_nil).trans (link_reg_seven s),
    (link_keepsRegsBut s).trans h.regs, h.pc, h.cond, h.memory⟩

/-- Settles O36: after each lap the loop still has no end, so the next step is one more lap, which writes at least one byte
for each Word it reads. -/
theorem aStringWithoutAZeroWordNeverEnds : Obligations.AStringWithoutAZeroWordNeverEnds := by
  intro s hrun
  rw [← putspBytes_eq]
  exact ⟨puts_scansInLaps.exec_endless hrun (exec_puts s), putsp_scansInLaps.exec_endless hrun (exec_putsp s)⟩

/-! A string with its zero Word (R175, R177). -/

/-- A string is in memory whatever else the state holds. -/
theorem stringAt_link {ws : List Word} {a : Word} {s : State} (h : StringAt ws a s) : StringAt ws a (link s) := by
  induction ws generalizing a with
  | nil => trivial
  | cons w rest ih =>
    obtain ⟨hne, hw, hrest⟩ := h
    exact ⟨hne, hw, ih hrest⟩

/-- A terminated string is written in one step. -/
theorem scanString_of_stringAt (f : Word → List Byte) (uw : Word → Busy) {ws : List Word} {s : State}
    (hlen : ws.length < 65536) (hnz : ∀ w ∈ ws, w ≠ 0x0000#16) (hat : StringAt (ws ++ [0x0000#16]) (s.reg 0#3) s) :
    scanString f uw scanLap (s.reg 0#3) (link s) = (consoleFlush (consolePuts (ws.flatMap f) (link s))).setBusy .idle :=
  scan_le (stringAt_loop f ws (s.reg 0#3) (link s) hnz (stringAt_link hat)) scanLap hlen

/-- An instruction that writes and flushes bytes after the link write, and leaves no routine under way. -/
theorem exists_next_of_flush_puts_link {o : Host.Outcome State Fault Refusal} {s : State} {bs : List Byte}
    (ho : o = .next ((consoleFlush (consolePuts bs (link s))).setBusy .idle)) :
    ∃ t, o = .next t ∧ t.outq = s.outq ++ bs ∧ t.flushed = t.outq.length ∧ t.reg 7#3 = s.pc ∧ KeepsRegsBut [7#3] s t ∧
      t.pc = s.pc ∧ t.cond = s.cond ∧ KeepsMemory s t ∧ KeepsInput s t ∧ t.run = s.run ∧ t.report = s.report ∧
      t.cfg = s.cfg ∧ t.busy = .idle := by
  obtain ⟨houtq, hflushed, hlink, hpc, hcond, hregs, hmem, hin, hrun, hreport, -, hcfg⟩ := flush_puts_link s _ bs rfl
  exact ⟨_, ho, houtq, hflushed, hlink, hregs, hpc, hcond, hmem, hin, hrun, hreport, hcfg, rfl⟩

/-- PUTSP's bytes, the high byte behind the low one. -/
theorem putspBytes_eq_cons : putspBytes =
    fun w => w.extractLsb' 0 8 :: (if w.extractLsb' 8 8 = 0x00#8 then [] else [w.extractLsb' 8 8]) := by
  funext w
  unfold putspBytes highByte lowByte
  split <;> rfl

/-- Settles O37: the string is a loop that ends within one lap and writes its bytes alone. -/
theorem stringRoutinesWriteTheStringAndStop : Obligations.StringRoutinesWriteTheStringAndStop := by
  intro s ws hlen hnz hat
  rw [← putspBytes_eq_cons, List.map_eq_flatMap]
  constructor <;> apply exists_next_of_flush_puts_link
  · rw [exec_puts, scanString_of_stringAt putsBytes .puts hlen hnz hat]
    rfl
  · rw [exec_putsp, scanString_of_stringAt putspBytes .putsp hlen hnz hat]

end Sys2Proof.Machine
end

section
/-! PROOFS. COND and its writers (`40_instruction_cycle.md` R117, R119), the branch table and JSRR (`43_control.md` R161,
R166), and what the routines touch and read (`44_trap.md` R181). -/

namespace Sys2Proof.Machine

/-! The flag-updating instructions (R117). -/

/-- GETC has a byte or waits (R39). -/
theorem getcRead_cases (s : State) :
    (∃ b rest, ByteTaken b rest s (getcRead s)) ∨ getcRead s = (hostTurn s).setBusy .getc := by
  cases h : (hostTurn s).kq with
  | nil => exact .inr (getcRead_none s h)
  | cons b rest => exact .inl ⟨b, rest, (getcRead_byteTaken h).1⟩

/-- IN has a byte or waits (R39). -/
theorem inRead_cases (s : State) :
    (∃ b rest, ByteTaken b rest s (inRead s)) ∨ inRead s = (hostTurn s).setBusy .inp := by
  cases h : (hostTurn s).kq with
  | nil => exact .inr (inRead_none s h)
  | cons b rest => exact .inl ⟨b, rest, (inRead_byteTaken h).1⟩

theorem ByteTaken.cond_eq_flagOf_reg {b : Byte} {rest : List Byte} {s t : State} (h : ByteTaken b rest s t) :
    t.cond = flagOf s.cfg (t.reg 0#3) := by rw [h.cond, h.regZero]

theorem promptShown_cfg (s : State) : (promptShown s).cfg = s.cfg := consolePuts_cfg _ _

theorem promptShown_cond (s : State) : (promptShown s).cond = s.cond := consolePuts_cond _ _

theorem exec_cond_of_flagDest_none {i : Instr} {s t : State} (hw : i.wf s.cfg = true) (h : flagDest i = none)
    (e : exec i s = .next t) : t.cond = s.cond := by
  cases i with
  | br => rw [exec_br, Host.Outcome.next.injEq] at e; rw [← e, setPc_cond]
  | sti => rw [exec_sti, Host.Outcome.next.injEq] at e; rw [← e]; exact memRead_cond s _
  | st | str | jmp | rsv1000 | rsv1101 => cases e; rfl
  | jsr | jsrr | out | puts | putsp | halt | trap =>
    obtain ⟨-, hcond⟩ := exec_linking_reg_seven_cond hw rfl e
    exact hcond Instr.noConfusion Instr.noConfusion
  | addReg | addImm | andReg | andImm | not | ld | ldi | ldr | lea | getc | inp => cases h

theorem exec_cond_of_flagDest_some {i : Instr} {s t : State} {dr : Reg} (h : flagDest i = some dr) (e : exec i s = .next t) :
    t.cond = flagOf s.cfg (t.reg dr) ∨ ((i = .getc ∨ i = .inp) ∧ t.busy ≠ .idle ∧ t.cond = s.cond) := by
  cases i with
  | addReg | addImm | andReg | andImm | not | lea => cases h; cases e; exact .inl (writeResult_cond_eq_flagOf_reg s _ _)
  | ld | ldr => cases h; cases e; exact .inl (loadFrom_cond_eq_flagOf_reg _ _ s)
  | ldi dr off9 =>
    cases h
    rw [exec_ldi, Host.Outcome.next.injEq] at e
    rw [← e, loadFrom_cond_eq_flagOf_reg, memRead_cfg]
    exact .inl rfl
  | getc =>
    cases h
    rw [exec_getc, Host.Outcome.next.injEq] at e
    subst e
    obtain ⟨b, rest, htaken⟩ | hwait := getcRead_cases (link s)
    · exact .inl htaken.cond_eq_flagOf_reg
    · rw [hwait]
      exact .inr ⟨.inl rfl, Busy.noConfusion, rfl⟩
  | inp =>
    cases h
    rw [exec_inp, Host.Outcome.next.injEq] at e
    subst e
    obtain ⟨b, rest, htaken⟩ | hwait := inRead_cases (promptShown s)
    · exact .inl (promptShown_cfg s ▸ htaken.cond_eq_flagOf_reg)
    · rw [hwait]
      exact .inr ⟨.inr rfl, Busy.noConfusion, promptShown_cond s⟩
  | br | st | jsr | jsrr | str | rsv1000 | sti | jmp | rsv1101 | out | puts | putsp | halt | trap => cases h

/-- Settles O51: COND is kept or a flag of a register, and every flag of a register is one of the three. -/
theorem flagsFollowTheDestinationAndNothingElse : Obligations.FlagsFollowTheDestinationAndNothingElse := by
  intro i s t hw e
  refine ⟨fun h => exec_cond_of_flagDest_none hw h e, fun dr h => exec_cond_of_flagDest_some h e, fun hinv => ?_⟩
  cases hd : flagDest i with
  | none => exact exec_cond_of_flagDest_none hw hd e ▸ hinv.oneFlag
  | some dr =>
    obtain h | ⟨-, -, h⟩ := exec_cond_of_flagDest_some hd e <;> rw [h]
    · exact flagOf_mem s.cfg _
    · exact hinv.oneFlag

/-! BR and JSRR. -/

/-- A mask meets a one-hot flag exactly in that flag's bit (R161). -/
theorem and_oneHot_ne_zero_iff : ∀ nzp cond : BitVec 3, cond ∈ [0b001#3, 0b010#3, 0b100#3] →
    (nzp &&& cond ≠ 0b000#3 ↔ (cond = 0b100#3 ∧ nzp.getLsbD 2 = true) ∨ (cond = 0b010#3 ∧ nzp.getLsbD 1 = true) ∨
      (cond = 0b001#3 ∧ nzp.getLsbD 0 = true)) := by decide

/-- Settles O26: the default flag values are one-hot in the order of the mask bits. -/
theorem branchMasksNameTheFlagThatIsSet : Obligations.BranchMasksNameTheFlagThatIsSet := by
  intro s nzp off9 hP hZ hN hmem
  rw [Config.flags, hP, hZ, hN] at hmem
  refine ⟨_, exec_br nzp off9 s, ?_⟩
  rw [setPc_pc, hP, hZ, hN]
  exact if_congr (and_oneHot_ne_zero_iff nzp s.cond hmem) rfl rfl

theorem exec_jsrr (base : Reg) (s : State) : exec (.jsrr base) s = .next ((link s).setPc ((link s).reg base)) := rfl

/-- Settles O29: the base is read after the link write, so base R7 reads pc. -/
theorem jsrrLinksBeforeItReadsTheBase : Obligations.JsrrLinksBeforeItReadsTheBase := fun s base ign ign' =>
  ⟨decode_jsrr s.cfg ign base ign', _, exec_jsrr base s, link_reg_seven s, link_reg s base, rfl, link_setPc_keepsAllBut s _⟩

/-! What the routines touch (R181). -/

/-- The registers a TRAP may write: R7, and R0 for the two that read a character. -/
def routineRegs (i : Instr) : List Reg := if i = .getc ∨ i = .inp then [0#3, 7#3] else [7#3]

/-- The Words of memory a TRAP may write: those of the keyboard, for the two that read a string. -/
def routineWords (c : Config) (i : Instr) : List Word := if i = .puts ∨ i = .putsp then [c.kbsr, c.kbdr] else []

theorem KeepsMemory.keepsMemoryBut {s t : State} (h : KeepsMemory s t) (ws : List Word) : KeepsMemoryBut ws s t :=
  fun a _ => h a

theorem getcRead_keeps (s : State) : (getcRead s).pc = s.pc ∧ KeepsMemory s (getcRead s) := by
  obtain ⟨b, rest, htaken⟩ | hwait := getcRead_cases s
  · exact ⟨htaken.pc, htaken.memory⟩
  · rw [hwait]; exact ⟨rfl, fun _ => rfl⟩

theorem inRead_keeps (s : State) : (inRead s).pc = s.pc ∧ KeepsMemory s (inRead s) := by
  obtain ⟨b, rest, htaken⟩ | hwait := inRead_cases s
  · exact ⟨htaken.pc, htaken.memory⟩
  · rw [hwait]; exact ⟨rfl, fun _ => rfl⟩

/-- A scan after the link write. -/
theorem scanString_link_keeps (f : Word → List Byte) (uw : Word → Busy) (n : Nat) (a : Word) (s : State) :
    (scanString f uw n a (link s)).pc = s.pc ∧ KeepsRegsBut [7#3] s (scanString f uw n a (link s)) ∧
      KeepsMemoryBut [s.cfg.kbsr, s.cfg.kbdr] s (scanString f uw n a (link s)) := by
  obtain ⟨-, hpc, -, -, hmem⟩ := scan_keeps f uw n a (link s)
  exact ⟨hpc, fun q hq => (scanString_reg f uw n a (link s) q).trans (link_keepsRegsBut s q hq), hmem⟩

/-- The frame of every TRAP. -/
theorem exec_trap_frame {i : Instr} {s t : State} (hw : i.wf s.cfg = true)
    (hi : isRoutine i = true ∨ ∃ ign vec, i = .trap ign vec) (e : exec i s = .next t) :
    t.pc = s.pc ∧ KeepsRegsBut (routineRegs i) s t ∧ KeepsMemoryBut (routineWords s.cfg i) s t := by
  cases i with
  | getc =>
    cases e
    obtain ⟨hpc, hmem⟩ := getcRead_keeps (link s)
    exact ⟨hpc, ((link_keepsRegsBut s).trans (getcRead_keepsRegsBut (link s))).mono (by decide), hmem.keepsMemoryBut _⟩
  | inp =>
    cases e
    obtain ⟨-, -, -, hpc, -, hregs, hmem, -⟩ := flush_puts_link s (promptShown s) _ rfl
    obtain ⟨hpc', hmem'⟩ := inRead_keeps (promptShown s)
    exact ⟨hpc'.trans hpc, (hregs.trans (inRead_keepsRegsBut (promptShown s))).mono (by decide),
      fun a _ => (hmem' a).trans (hmem a)⟩
  | puts | putsp => cases e; exact scanString_link_keeps _ _ _ _ s
  | out =>
    rw [exec_out, Host.Outcome.next.injEq] at e
    obtain ⟨-, -, -, hpc, -, hregs, hmem, -⟩ := flush_puts_link s t _ e.symm
    exact ⟨hpc, hregs, hmem.keepsMemoryBut _⟩
  | halt =>
    cases e
    obtain ⟨-, -, -, hpc, -, hregs, hmem, -⟩ := flush_puts_link s _ s.cfg.haltNotice rfl
    exact ⟨hpc, hregs, hmem.keepsMemoryBut _⟩
  | trap ign vec =>
    rw [exec_of_fatalOf hw rfl, Host.Outcome.next.injEq] at e
    subst e
    exact ⟨rfl, link_keepsRegsBut s, fun _ _ => rfl⟩
  | br | addReg | addImm | ld | st | jsr | jsrr | andReg | andImm | ldr | str | rsv1000 | not | ldi | sti | jmp | rsv1101
  | lea =>
    obtain hr | ⟨ign, vec, hv⟩ := hi
    · exact absurd hr Bool.false_ne_true
    · cases hv

theorem routineRegs_subset (i : Instr) : routineRegs i ⊆ [0#3, 7#3] := by
  unfold routineRegs; split <;> decide

theorem routineWords_subset (c : Config) (i : Instr) : routineWords c i ⊆ [c.kbsr, c.kbdr] := by
  unfold routineWords
  split
  · exact List.Subset.refl _
  · exact List.nil_subset _

theorem isLinking_of_trap {i : Instr} (h : isRoutine i = true ∨ ∃ ign vec, i = .trap ign vec) : isLinking i = true := by
  obtain h | ⟨ign, vec, rfl⟩ := h
  · cases i with
    | getc | out | puts | inp | putsp | halt => rfl
    | _ => exact absurd h Bool.false_ne_true
  · rfl

/-- Settles O55: the frame of a TRAP is its link write and the table's registers and Words; R7 and COND are those of
every linking instruction (R163). -/
theorem routinesTouchOnlyTheirOwnState : Obligations.RoutinesTouchOnlyTheirOwnState := by
  intro i s t hw hi e
  obtain ⟨hpc, hregs, hmem⟩ := exec_trap_frame hw hi e
  obtain ⟨hseven, -, hcond⟩ := theLinkIsTheAddressAJumpThroughR7ReturnsTo i s t hw (isLinking_of_trap hi) e
  have hcfg : t.cfg = s.cfg := cfg_chain.exec i s t (fun _ _ _ _ => rfl) (fun _ _ => rfl) (fun _ _ _ _ => rfl) e
  refine ⟨hregs.mono (routineRegs_subset i), hseven, hpc, hcfg, fun a ha => hmem a fun hm => ha (routineWords_subset _ i hm),
    fun hputs hputsp a => hmem a ?_, fun hgetc hinp => ⟨hregs 0#3 ?_, hcond hgetc hinp⟩⟩
  · rw [routineWords, if_neg (not_or.mpr ⟨hputs, hputsp⟩)]
    exact List.not_mem_nil
  · rw [routineRegs, if_neg (not_or.mpr ⟨hgetc, hinp⟩)]
    decide

/-! What the routines read (R181): a write to any register but R0 and R7 passes through them. -/

theorem link_setReg (s : State) (r : Reg) (v : Word) (h : r ≠ 7#3) : link (s.setReg r v) = (link s).setReg r v :=
  setReg_setReg s r 7#3 v s.pc h

theorem consoleFlush_puts_link_setReg (bs : List Byte) (s : State) (r : Reg) (v : Word) (h : r ≠ 7#3) :
    consoleFlush (consolePuts bs (link (s.setReg r v))) = (consoleFlush (consolePuts bs (link s))).setReg r v := by
  rw [link_setReg s r v h, consolePuts_setReg]
  rfl

theorem resumeRoutine_setReg (s : State) (r : Reg) (v : Word) (h : r ≠ 0#3) :
    resumeRoutine (s.setReg r v) = (resumeRoutine s).setReg r v := by
  simp only [resumeRoutine, setReg_busy]
  cases s.busy with
  | idle => rfl
  | getc => exact getcRead_setReg s r v h
  | inp => exact inRead_setReg s r v h
  | puts a => exact scanString_setReg _ _ _ r v a s
  | putsp a => exact scanString_setReg _ _ _ r v a s

theorem exec_routine_setReg {i : Instr} {s t : State} {r : Reg} (v : Word) (h0 : r ≠ 0#3) (h7 : r ≠ 7#3)
    (hi : isRoutine i = true) (e : exec i s = .next t) : exec i (s.setReg r v) = .next (t.setReg r v) := by
  have hzero : (s.setReg r v).reg 0#3 = s.reg 0#3 := reg_setReg_other s r 0#3 v h0.symm
  cases i with
  | getc => cases e; rw [exec_getc, link_setReg s r v h7, getcRead_setReg _ r v h0]; rfl
  | inp =>
    cases e
    rw [exec_inp, promptShown, consoleFlush_puts_link_setReg _ s r v h7, inRead_setReg _ r v h0]
    rfl
  | out =>
    rw [exec_out, Host.Outcome.next.injEq] at e
    rw [exec_out, hzero, consoleFlush_puts_link_setReg _ s r v h7, e]
  | halt => cases e; rw [exec_halt, consoleFlush_puts_link_setReg _ s r v h7]; rfl
  | puts =>
    rw [exec_puts, Host.Outcome.next.injEq] at e
    rw [exec_puts, hzero, link_setReg s r v h7, scanString_setReg, e]
  | putsp =>
    rw [exec_putsp, Host.Outcome.next.injEq] at e
    rw [exec_putsp, hzero, link_setReg s r v h7, scanString_setReg, e]
  | _ => exact absurd hi Bool.false_ne_true

/-- Settles O56: the write passes through the instruction, and through every later look or lap. -/
theorem routinesDoNotReadR1ToR6 : Obligations.RoutinesDoNotReadR1ToR6 := by
  refine fun s t r v h0 h7 => ⟨fun i hi e => exec_routine_setReg v h0 h7 hi e, fun hbusy e => ?_⟩
  obtain ⟨hrun, ⟨hidle, -⟩ | ⟨-, rfl⟩⟩ := step_inv s t e
  · exact absurd hidle hbusy
  · rw [step_busy (s.setReg r v) hrun hbusy, resumeRoutine_setReg s r v h0]

end Sys2Proof.Machine
end

section
/-! PROOFS. Words that differ in ignored bits (R90, D6): each mask of R83 leaves alone the fields its rows are decoded from. -/

namespace Sys2Proof.Machine

/-! Instructions that run alike but for the fatal report (log 11). -/

/-- One instruction, or two fatal ones, with the same outcome in every state but for the report. -/
structure RunAlike (i j : Instr) : Prop where
  same : i = j ∨ ((fatalOf i).isSome ∧ (fatalOf j).isSome)
  outcome : ∀ s, withoutReport (exec i s) = withoutReport (exec j s)

theorem runAlike_of_eq {i j : Instr} (h : i = j) : RunAlike i j := ⟨.inl h, fun _ => h ▸ rfl⟩

theorem runAlike_rsv1000 (low low' : BitVec 12) : RunAlike (.rsv1000 low) (.rsv1000 low') := ⟨.inr ⟨rfl, rfl⟩, fun _ => rfl⟩

theorem runAlike_rsv1101 (low low' : BitVec 12) : RunAlike (.rsv1101 low) (.rsv1101 low') := ⟨.inr ⟨rfl, rfl⟩, fun _ => rfl⟩

/-- The dispatch puts the instruction Word in the report and nowhere else. -/
theorem withoutReport_dispatchTrap (vec : BitVec 8) (w w' : Word) (s : State) :
    withoutReport (.next (dispatchTrap vec w s)) = withoutReport (.next (dispatchTrap vec w' s)) := by
  unfold dispatchTrap
  split_ifs <;> rfl

theorem runAlike_trap (ign ign' : BitVec 4) (vec : BitVec 8) : RunAlike (.trap ign vec) (.trap ign' vec) :=
  ⟨.inr ⟨rfl, rfl⟩, fun s => withoutReport_dispatchTrap vec _ _ (link s)⟩

theorem runAlike_decodeTrap (c : Config) (ign ign' : BitVec 4) (vec : BitVec 8) :
    RunAlike (decodeTrap c ign vec) (decodeTrap c ign' vec) := by
  unfold decodeTrap
  split_ifs
  case neg => exact runAlike_trap ign ign' vec
  all_goals exact runAlike_of_eq rfl

/-! The decoder on two Words that agree outside a mask. -/

section
variable {c : Config} {w w' : Word}

/-- ADD and AND, register form. -/
theorem decode_eq_of_masked_operateReg (hop : fieldOpcode w = 0b0001#4 ∨ fieldOpcode w = 0b0101#4)
    (hmode : fieldMode w = 0b0#1) (h : w &&& ~~~0x0018#16 = w' &&& ~~~0x0018#16) : decode c w = decode c w' := by
  have eop : fieldOpcode w = fieldOpcode w' := field_of_masked w w' _ h 12 4 (by decide)
  have edr : fieldDr w = fieldDr w' := field_of_masked w w' _ h 9 3 (by decide)
  have ebase : fieldBase w = fieldBase w' := field_of_masked w w' _ h 6 3 (by decide)
  have emode : fieldMode w = fieldMode w' := field_of_masked w w' _ h 5 1 (by decide)
  have esr2 : fieldSr2 w = fieldSr2 w' := field_of_masked w w' _ h 0 3 (by decide)
  obtain hop | hop := hop <;> simp [decode, ← eop, ← edr, ← ebase, ← emode, ← esr2, hop, hmode]

/-- JSRR. -/
theorem decode_eq_of_masked_jsrr (hop : fieldOpcode w = 0b0100#4) (hflag : fieldFlag w = 0b0#1)
    (h : w &&& ~~~0x063F#16 = w' &&& ~~~0x063F#16) : decode c w = decode c w' := by
  have eop : fieldOpcode w = fieldOpcode w' := field_of_masked w w' _ h 12 4 (by decide)
  have eflag : fieldFlag w = fieldFlag w' := field_of_masked w w' _ h 11 1 (by decide)
  have ebase : fieldBase w = fieldBase w' := field_of_masked w w' _ h 6 3 (by decide)
  simp [decode, ← eop, ← eflag, ← ebase, hop, hflag]

/-- NOT. -/
theorem decode_eq_of_masked_not (hop : fieldOpcode w = 0b1001#4) (h : w &&& ~~~0x003F#16 = w' &&& ~~~0x003F#16) :
    decode c w = decode c w' := by
  have eop : fieldOpcode w = fieldOpcode w' := field_of_masked w w' _ h 12 4 (by decide)
  have edr : fieldDr w = fieldDr w' := field_of_masked w w' _ h 9 3 (by decide)
  have ebase : fieldBase w = fieldBase w' := field_of_masked w w' _ h 6 3 (by decide)
  simp [decode, ← eop, ← edr, ← ebase, hop]

/-- JMP. -/
theorem decode_eq_of_masked_jmp (hop : fieldOpcode w = 0b1100#4) (h : w &&& ~~~0x0E3F#16 = w' &&& ~~~0x0E3F#16) :
    decode c w = decode c w' := by
  have eop : fieldOpcode w = fieldOpcode w' := field_of_masked w w' _ h 12 4 (by decide)
  have ebase : fieldBase w = fieldBase w' := field_of_masked w w' _ h 6 3 (by decide)
  simp [decode, ← eop, ← ebase, hop]

/-- The reserved opcodes. -/
theorem runAlike_of_masked_reserved (hop : fieldOpcode w = 0b1000#4 ∨ fieldOpcode w = 0b1101#4)
    (h : w &&& ~~~0x0FFF#16 = w' &&& ~~~0x0FFF#16) : RunAlike (decode c w) (decode c w') := by
  have eop : fieldOpcode w = fieldOpcode w' := field_of_masked w w' _ h 12 4 (by decide)
  obtain hop | hop := hop <;> simp only [decode, ← eop, hop]
  · exact runAlike_rsv1000 _ _
  · exact runAlike_rsv1101 _ _

/-- TRAP. -/
theorem runAlike_of_masked_trap (hop : fieldOpcode w = 0b1111#4) (h : w &&& ~~~0x0F00#16 = w' &&& ~~~0x0F00#16) :
    RunAlike (decode c w) (decode c w') := by
  have eop : fieldOpcode w = fieldOpcode w' := field_of_masked w w' _ h 12 4 (by decide)
  have evec : fieldVec w = fieldVec w' := field_of_masked w w' _ h 0 8 (by decide)
  simp only [decode, ← eop, ← evec, hop]
  exact runAlike_decodeTrap c _ _ _

/-- Without ignored bits the Words are one. -/
theorem eq_of_masked_zero (h : w &&& ~~~0x0000#16 = w' &&& ~~~0x0000#16) : w = w' := by
  rwa [BitVec.not_zero, BitVec.and_allOnes, BitVec.and_allOnes] at h

theorem runAlike_of_masked (h : w &&& ~~~ ignoredBits w = w' &&& ~~~ ignoredBits w) : RunAlike (decode c w) (decode c w') := by
  unfold ignoredBits at h
  split_ifs at h with hoperate hmode hjsrr hflag hnot hjmp hreserved htrap
  · exact runAlike_of_eq (decode_eq_of_masked_operateReg hoperate hmode h)
  · exact runAlike_of_eq (eq_of_masked_zero h ▸ rfl)
  · exact runAlike_of_eq (decode_eq_of_masked_jsrr hjsrr hflag h)
  · exact runAlike_of_eq (eq_of_masked_zero h ▸ rfl)
  · exact runAlike_of_eq (decode_eq_of_masked_not hnot h)
  · exact runAlike_of_eq (decode_eq_of_masked_jmp hjmp h)
  · exact runAlike_of_masked_reserved hreserved h
  · exact runAlike_of_masked_trap htrap h
  · exact runAlike_of_eq (eq_of_masked_zero h ▸ rfl)

end

/-- Settles O3: outside the fatal rows the fields decoded are the same; the fatal rows run alike. -/
theorem wordsDifferingInIgnoredBitsRunAlike : Obligations.WordsDifferingInIgnoredBitsRunAlike := fun c w w' h =>
  have hrun : RunAlike (decode c w) (decode c w') := runAlike_of_masked h
  ⟨hrun.same, hrun.outcome⟩

/-- Settles O5: each of the Words is closed, so the decoder evaluates. -/
theorem wordsWrittenOutFromTheSpecDecode : Obligations.WordsWrittenOutFromTheSpecDecode := by
  unfold Obligations.WordsWrittenOutFromTheSpecDecode
  decide

end Sys2Proof.Machine
end

section
/-! PROOFS. The canonical form of memory (log 1), the reset with any inputs (`10_state.md` R42, `70_reset_and_hazards.md`
R231 to R236), and the run over memory that is all zero (R93, R242). -/

namespace Sys2Proof.Machine

/-! Reading a canonical memory. -/

theorem memWfFrom_cons_iff {low k : Nat} {v : Word} {rest : Memory} :
    memWfFrom low ((k, v) :: rest) = true ↔ low ≤ k ∧ k < 65536 ∧ v ≠ 0x0000#16 ∧ memWfFrom (k + 1) rest = true := by
  simp only [memWfFrom, Bool.and_eq_true, decide_eq_true_eq, and_assoc]

theorem memGet_cons_same (k : Nat) (v : Word) (rest : Memory) : memGet ((k, v) :: rest) k = v := by simp [memGet]

theorem memGet_cons_of_lt {a k : Nat} (v : Word) (rest : Memory) (h : a < k) : memGet ((k, v) :: rest) a = 0x0000#16 :=
  if_pos h

theorem memGet_cons_of_gt {a k : Nat} (v : Word) (rest : Memory) (h : k < a) :
    memGet ((k, v) :: rest) a = memGet rest a := by
  rw [memGet, if_neg h.not_gt, if_neg h.ne']

/-- Below its first address a canonical memory reads 0x0000. -/
theorem memGet_of_lt {low a : Nat} {m : Memory} (h : memWfFrom low m = true) (ha : a < low) : memGet m a = 0x0000#16 := by
  cases m with
  | nil => rfl
  | cons e rest =>
    obtain ⟨hlow, -⟩ := memWfFrom_cons_iff.mp h
    exact memGet_cons_of_lt e.2 rest (ha.trans_le hlow)

/-- A memory lists no address below the first of one that reads alike. -/
theorem le_of_memGet_eq {low k k' : Nat} {v v' : Word} {rest rest' : Memory} (h : memWfFrom low ((k, v) :: rest) = true)
    (heq : ∀ a, a < 65536 → memGet ((k, v) :: rest) a = memGet ((k', v') :: rest') a) : k' ≤ k := by
  obtain ⟨-, hk, hv, -⟩ := memWfFrom_cons_iff.mp h
  by_contra hlt
  refine hv ?_
  rw [← memGet_cons_same k v rest, heq k hk, memGet_cons_of_lt v' rest' (not_le.mp hlt)]

/-- A canonical memory that reads 0x0000 everywhere lists nothing. -/
theorem eq_nil_of_memGet_eq_zero {low : Nat} {m : Memory} (h : memWfFrom low m = true)
    (hz : ∀ a, a < 65536 → memGet m a = 0x0000#16) : m = [] := by
  cases m with
  | nil => rfl
  | cons e rest =>
    obtain ⟨-, hk, hv, -⟩ := memWfFrom_cons_iff.mp h
    exact absurd ((memGet_cons_same e.1 e.2 rest).symm.trans (hz e.1 hk)) hv

theorem eq_of_memGet_eq {low low' : Nat} {m m' : Memory} (h : memWfFrom low m = true) (h' : memWfFrom low' m' = true)
    (heq : ∀ a, a < 65536 → memGet m a = memGet m' a) : m = m' := by
  induction m generalizing low low' m' with
  | nil => exact (eq_nil_of_memGet_eq_zero h' fun a ha => (heq a ha).symm).symm
  | cons e rest ih =>
    cases m' with
    | nil => exact eq_nil_of_memGet_eq_zero h heq
    | cons e' rest' =>
      obtain ⟨k, v⟩ := e
      obtain ⟨k', v'⟩ := e'
      obtain rfl : k = k' := le_antisymm (le_of_memGet_eq h' fun a ha => (heq a ha).symm) (le_of_memGet_eq h heq)
      obtain ⟨-, hk, -, hrest⟩ := memWfFrom_cons_iff.mp h
      obtain ⟨-, -, -, hrest'⟩ := memWfFrom_cons_iff.mp h'
      have hv : v = v' := by rw [← memGet_cons_same k v rest, heq k hk, memGet_cons_same]
      have htail : rest = rest' := by
        refine ih hrest hrest' fun a ha => ?_
        by_cases hak : a ≤ k
        · rw [memGet_of_lt hrest (Nat.lt_succ_of_le hak), memGet_of_lt hrest' (Nat.lt_succ_of_le hak)]
        · rw [← memGet_cons_of_gt v rest (not_le.mp hak), heq a ha, memGet_cons_of_gt v' rest' (not_le.mp hak)]
      rw [hv, htail]

/-- Settles O9: the first addresses agree, since the smaller one would read 0x0000 in the other memory, and so do the rests. -/
theorem canonicalMemoriesThatReadAlikeAreEqual : Obligations.CanonicalMemoriesThatReadAlikeAreEqual := fun _ _ =>
  eq_of_memGet_eq

/-! The reset with any inputs. -/

/-- The machine of the table of R42. -/
def created (c : Config) (g : Vector Word 8) (o : Word) (im : List Word) (q : List Byte) (ar : HostPlan) : State where
  x := g
  pc := o
  cond := c.flagZ
  run := .running
  mem := placeImage im o.toNat []
  kq := q
  arrivals := ar
  outq := []
  flushed := 0
  busy := .idle
  report := none
  cfg := c

section
variable {c : Config} {g : Vector Word 8} {o : Word} {im : List Word} {q : List Byte} {ar : HostPlan}

theorem createMachine_of_fits (hc : c.wf = true) (hl : o.toNat + im.length ≤ 65536) :
    createMachine c g o im q ar = .ok (created c g o im q ar) :=
  if_pos (by simp [hc, hl])

theorem createMachine_of_not_fits (h : ¬ (c.wf = true ∧ o.toNat + im.length ≤ 65536)) :
    createMachine c g o im q ar = .error .badConfiguration :=
  if_neg (by simpa using h)

/-- The image reads as placed (R236). -/
theorem created_peek_image (hl : o.toNat + im.length ≤ 65536) (k : Nat) (h : k < im.length) :
    (created c g o im q ar).peek (o + BitVec.ofNat 16 k) = im[k] := by
  have hto : (o + BitVec.ofNat 16 k).toNat = o.toNat + k := by
    rw [BitVec.toNat_add, BitVec.toNat_ofNat]
    omega
  rw [State.peek, hto, created, placeImage_get, dif_pos ⟨Nat.le_add_right _ _, Nat.add_lt_add_left h _⟩]
  simp only [Nat.add_sub_cancel_left]

/-- Every other Word is zero (R35). -/
theorem created_peek_other (a : Word) (h : a.toNat < o.toNat ∨ o.toNat + im.length ≤ a.toNat) :
    (created c g o im q ar).peek a = 0x0000#16 := by
  rw [State.peek, created, placeImage_get, dif_neg (by omega)]
  rfl

theorem created_inv (hc : c.wf = true) (hl : o.toNat + im.length ≤ 65536) : (created c g o im q ar).Inv where
  config := hc
  oneFlag := by simp [created, Config.flags]
  memory := placeImage_wf im o.toNat [] rfl hl
  flush := le_rfl
  report := ⟨fun _ => RunState.noConfusion, fun _ => rfl⟩
  underWay h := absurd rfl h

end

/-- Settles O59: the inputs are accepted exactly if they meet R7 and R236, and the machine is the table's. -/
theorem resetGivesTheStateOfTheTable : Obligations.ResetGivesTheStateOfTheTable := by
  intro c g o im q ar
  refine ⟨⟨fun herr => ?_, fun hbad => createMachine_of_not_fits ?_⟩, fun hc hl => ⟨_, createMachine_of_fits hc hl, rfl, rfl,
    rfl, rfl, created_peek_image hl, created_peek_other, rfl, rfl, rfl, rfl, rfl, rfl, rfl⟩⟩
  · by_contra hgood
    rw [not_or, Bool.not_eq_false, not_lt] at hgood
    rw [createMachine_of_fits hgood.1 hgood.2] at herr
    cases herr
  · rintro ⟨hc, hl⟩
    obtain hbad | hbad := hbad
    · rw [hc] at hbad; cases hbad
    · exact absurd hl (not_le.mpr hbad)

/-- Settles O49: the table's values meet each clause, the memory because an image that fits is placed in canonical form. -/
theorem everyCreatedMachineMeetsTheInvariant : Obligations.EveryCreatedMachineMeetsTheInvariant := by
  intro c g o im q ar s h
  by_cases hfits : c.wf = true ∧ o.toNat + im.length ≤ 65536
  · obtain ⟨hc, hl⟩ := hfits
    rw [createMachine_of_fits hc hl] at h
    cases h
    exact created_inv hc hl
  · rw [createMachine_of_not_fits hfits] at h
    cases h

/-- Settles O48: the reset state is the machine created with the default parameters and an empty image. -/
theorem resetMeetsTheInvariant : Obligations.ResetMeetsTheInvariant :=
  created_inv (c := defaultConfig) (g := Vector.replicate 8 0x0000#16) (o := defaultOrigin) (im := []) (q := [])
    (ar := .silent) (by decide) (by decide)

/-! Image files (R235). -/

theorem highByte_append_lowByte (w : Word) : (w.extractLsb' 8 8 ++ w.extractLsb' 0 8 : Word) = w := by
  apply BitVec.eq_of_toNat_eq
  have hcat : (w.extractLsb' 8 8 ++ w.extractLsb' 0 8).toNat = w.toNat / 2 ^ 8 % 2 ^ 8 * 2 ^ 8 + w.toNat / 2 ^ 0 % 2 ^ 8 := by
    rw [toNat_cat, toNat_extract, toNat_extract]
  have hw := w.isLt
  exact hcat.trans (by omega)

theorem bigEndianWords_flatMap (ws : List Word) :
    bigEndianWords (ws.flatMap fun w => [w.extractLsb' 8 8, w.extractLsb' 0 8]) = some ws := by
  induction ws with
  | nil => rfl
  | cons w rest ih =>
    rw [List.flatMap_cons, List.cons_append, List.cons_append, List.nil_append, bigEndianWords, ih, Option.map_some,
      highByte_append_lowByte]

/-- Settles O60: the Words come back in order, and ORIGIN is the first. -/
theorem anImageFileIsBigEndianWithItsOriginFirst : Obligations.AnImageFileIsBigEndianWithItsOriginFirst := fun o im => by
  rw [imageOfFile, bigEndianWords_flatMap]

/-! No-operations for ever (R93, R242). -/

/-- A running, idle core over zeros, with no input and none to come. -/
structure IdleOverZeros (s : State) : Prop where
  run : s.run = .running
  busy : s.busy = .idle
  memory : ∀ a, s.peek a = 0x0000#16
  kq : s.kq = []
  arrivals : ∀ n, upcoming n s.arrivals = []

/-- A read finds 0x0000, also at KBSR, where it stores 0x0000. -/
theorem IdleOverZeros.after_memRead {s : State} (h : IdleOverZeros s) (a : Word) :
    (memRead s a).1 = 0x0000#16 ∧ IdleOverZeros (memRead s a).2 := by
  by_cases ha : a = s.cfg.kbsr
  · obtain ⟨hkq, harrivals⟩ := hostTurn_of_no_input s h.kq h.arrivals
    rw [ha, memRead_kbsr_clear s hkq]
    refine ⟨rfl, h.run, h.busy, fun b => ?_, hkq, harrivals⟩
    rw [peek_poke, hostTurn_peek, h.memory b, ite_self]
  · rw [memRead_other s a ha]
    exact ⟨h.memory a, h⟩

/-- The Word 0x0000 is BR with an empty mask (R93). -/
theorem decode_zero (c : Config) : decode c 0x0000#16 = .br 0b000#3 0#9 := decode_br c 0b000#3 0#9

theorem exec_nop (off9 : BitVec 9) (s : State) : exec (.br 0b000#3 off9) s = .next s := by
  rw [exec_br, BitVec.zero_and, if_neg (not_not.mpr rfl)]
  rfl

/-- A step over zeros is its fetch. -/
theorem IdleOverZeros.step_eq_fetch {s : State} (h : IdleOverZeros s) :
    step s = .next (fetch s).2 ∧ IdleOverZeros (fetch s).2 := by
  obtain ⟨hword, hread⟩ := h.after_memRead s.pc
  have hfetch : IdleOverZeros (fetch s).2 := ⟨hread.run, hread.busy, hread.memory, hread.kq, hread.arrivals⟩
  have hdecode : decode s.cfg (fetch s).1 = .br 0b000#3 0#9 := by rw [← decode_zero s.cfg]; exact congrArg _ hword
  refine ⟨?_, hfetch⟩
  rw [step_idle s h.run h.busy, hdecode, exec_nop]
  exact endStep_of_ne_fatal (by rw [hfetch.run]; exact RunState.noConfusion)

/-- Settles O58: a step over zeros moves pc alone and leaves such a state again. -/
theorem zeroedMemoryRunsNoOperationsForEver : Obligations.ZeroedMemoryRunsNoOperationsForEver := by
  intro s k hrun hidle hmem hkq harrivals
  have h : IdleOverZeros s := ⟨hrun, hidle, hmem, hkq, harrivals⟩
  clear hrun hidle hmem hkq harrivals
  induction k generalizing s with
  | zero => exact ⟨s, rfl, (BitVec.add_zero s.pc).symm, rfl, h.run, fun _ _ => rfl, fun _ => rfl, rfl, rfl⟩
  | succ k ih =>
    obtain ⟨hstep, hnext⟩ := h.step_eq_fetch
    obtain ⟨t, ht, hpc, hcond, hrun, hregs, hkeeps, hout⟩ := ih (fetch s).2 hnext
    refine ⟨t, (run_succ_of_step hstep k).trans ht, ?_, hcond.trans (fetch_cond s), hrun,
      fun q hq => (hregs q hq).trans (fetch_reg s q), fun a => ?_, (fetch_keepsOutput s).trans hout⟩
    · rw [hpc, fetch_pc, BitVec.add_assoc, BitVec.ofNat_add, BitVec.add_comm (BitVec.ofNat 16 k)]
    · rw [hkeeps a, hnext.memory a, h.memory a]

end Sys2Proof.Machine
end
